-- ==== Sys2Proof/Word.lean ====
section
/-! DEFINITION. The word types of the block: sizes fixed by rule R6 of spec/00_scope.md. Bit 31 is the most significant
bit of a word (R8). -/

namespace Sys2Proof

/-- A byte of the host's memory image (R42). -/
abbrev Byte := BitVec 8

/-- A `u32`: an instruction word, a shadow register, and the bits of an `i32` (R9). -/
abbrev Word := BitVec 32

/-- A `u64`: the address of an instruction (R42, D17). -/
abbrev Addr := BitVec 64

/-- A 5-bit register index field (R6 `REGIDX_BITS`). -/
abbrev RegIdx := BitVec 5

/-- An opcode table slot, a primary opcode 0..63 (R61). -/
abbrev Slot := BitVec 6

/-- The shadow array `x`: 32 registers of 32 bits (R20). -/
abbrev Shadow := Vector Word 32

end Sys2Proof
end

