-- ==== Sys2Proof/Config.lean ====
section
/-! DEFINITION. The immutable data of the block (rules R29, R31, R32 of spec/10_state.md) and its open parameters (rule R7 of
spec/00_scope.md). The parameters the source does not give are FIELDS OF PLAIN DATA, held in State: every claim is then for
every value that meets R7's constraints (log 1). The functions over them stand in Machine/OpcodeTable.lean. -/

namespace Sys2Proof

/-- The four instruction classes (R32). -/
inductive InstructionClass where
  | register
  | immediate
  | jump
  | invalid
  deriving DecidableEq, Repr

/-- ArgumentSpec (R31): how one operand field is pulled out of a word. -/
structure ArgumentSpec where
  mask : Word
  shift : Word
  signBitMask : Word
  signExtendPattern : Word
  deriving DecidableEq, Repr

/-- OpcodeDescriptor (R32). `opcodeId` is the slot number, or `none` for the sentinel (D12). -/
structure OpcodeDescriptor where
  opcodeId : Option Slot
  mnemonic : String
  cls : InstructionClass
  destinationSpec : ArgumentSpec
  sourceSpec : ArgumentSpec
  baseSpec : ArgumentSpec
  immediateSpec : ArgumentSpec
  deriving DecidableEq, Repr

/-- What the open part of `OPTABLE` says of one slot (R109, R112): the shared sentinel, or a descriptor of its own with a
mnemonic and a class. Its `opcode_id` and specs follow from the slot and the class (R112, R74). -/
inductive SlotEntry where
  | sentinel
  | named (mnemonic : String) (cls : InstructionClass)
  deriving DecidableEq, Repr

/-- The open parameters of R7. `other` is `OPTABLE` at the slots the source does not name; its entries at the five named slots
are not read. `shadowReset[i - 1]` is `SHADOW_RESET(i)` for `i` in 1..31. -/
structure Config where
  other : Vector SlotEntry 64
  opcLoadHigh : Slot
  opcLoadAddr : Slot
  mnemLoadHigh : String
  mnemLoadAddr : String
  classLoadHigh : InstructionClass
  slot3fNamed : Bool
  shadowReset : Vector Word 31
  deriving DecidableEq, Repr

end Sys2Proof
end

