-- ==== Sys2Proof/Machine/BitfieldExtractor.lean ====
section
/-! DEFINITION. The BitfieldExtractor (spec/40_bitfield_extractor.md) and the nine field specifications of
spec/30_encoding.md. -/

namespace Sys2Proof

/-- R61. -/
def specOpcode : ArgumentSpec := ⟨0xFC000000#32, 26#32, 0#32, 0#32⟩

/-- R62: the empty spec. -/
def specEmpty : ArgumentSpec := ⟨0#32, 0#32, 0#32, 0#32⟩

/-- R63: destination, bits 25..21. -/
def specRd : ArgumentSpec := ⟨0x03E00000#32, 21#32, 0#32, 0#32⟩

/-- R63: source, bits 20..16. -/
def specRs : ArgumentSpec := ⟨0x001F0000#32, 16#32, 0#32, 0#32⟩

/-- R63: base, bits 15..11. -/
def specRb : ArgumentSpec := ⟨0x0000F800#32, 11#32, 0#32, 0#32⟩

/-- R63: the Register class immediate, bits 10..0. -/
def specImm11 : ArgumentSpec := ⟨0x000007FF#32, 0#32, 0x00000400#32, 0xFFFFF800#32⟩

/-- R64: the Immediate class immediate, bits 15..0. -/
def specImm16 : ArgumentSpec := ⟨0x0000FFFF#32, 0#32, 0x00008000#32, 0xFFFF0000#32⟩

/-- R65: the Jump class immediate, bits 25..0. -/
def specImm26 : ArgumentSpec := ⟨0x03FFFFFF#32, 0#32, 0x02000000#32, 0xFC000000#32⟩

/-- R66: the whole word, no extension (D10). -/
def specWord : ArgumentSpec := ⟨0xFFFFFFFF#32, 0#32, 0#32, 0#32⟩

/-- R90: `(word & mask) >> shift`, a logical shift. A shift of 32 or more gives 0, never a count modulo 32 (R94, log 18). -/
def extract (word : Word) (spec : ArgumentSpec) : Word :=
  (word &&& spec.mask) >>> spec.shift

/-- R91: the sign bit is tested on the extracted value; the pattern is OR'd in only when it is set. The result is the 32 bits
of an `i32`. -/
def signExtend (raw : Word) (spec : ArgumentSpec) : Word :=
  if raw &&& spec.signBitMask ≠ 0#32 then raw ||| spec.signExtendPattern else raw

/-- R95: the composition the decoder uses for the immediate. -/
def field (word : Word) (spec : ArgumentSpec) : Word :=
  signExtend (extract word spec) spec

/-- R74: the destination spec of a class. -/
def destinationSpecOf : InstructionClass → ArgumentSpec
  | .register => specRd
  | .immediate => specRd
  | .jump => specEmpty
  | .invalid => specEmpty

/-- R74: the source spec of a class. -/
def sourceSpecOf : InstructionClass → ArgumentSpec
  | .register => specRs
  | .immediate => specRs
  | .jump => specEmpty
  | .invalid => specEmpty

/-- R74: the base spec of a class. -/
def baseSpecOf : InstructionClass → ArgumentSpec
  | .register => specRb
  | .immediate => specEmpty
  | .jump => specEmpty
  | .invalid => specEmpty

/-- R74: the immediate spec of a class. -/
def immediateSpecOf : InstructionClass → ArgumentSpec
  | .register => specImm11
  | .immediate => specImm16
  | .jump => specImm26
  | .invalid => specWord

end Sys2Proof
end

