-- ==== Sys2Proof/Machine/OpcodeTable.lean ====
section
/-! DEFINITION. The OpcodeTable (spec/41_opcode_table.md): the sentinel, the 64 slots under a configuration, the lookup, and
the reference configuration. -/

namespace Sys2Proof

/-- R102: the shared sentinel. -/
def sentinel : OpcodeDescriptor where
  opcodeId := none
  mnemonic := ".dword"
  cls := .invalid
  destinationSpec := specEmpty
  sourceSpec := specEmpty
  baseSpec := specEmpty
  immediateSpec := specWord

/-- R112, R74: a slot's own descriptor, its specs those of its class (D9, log 20). -/
def descriptorOf (o : Slot) (mnemonic : String) (k : InstructionClass) : OpcodeDescriptor where
  opcodeId := some o
  mnemonic := mnemonic
  cls := k
  destinationSpec := destinationSpecOf k
  sourceSpec := sourceSpecOf k
  baseSpec := baseSpecOf k
  immediateSpec := immediateSpecOf k

/-- The descriptor an entry of the open part of the table stands for at slot `o` (R109, R112). -/
def SlotEntry.descriptor (o : Slot) : SlotEntry → OpcodeDescriptor
  | .sentinel => Sys2Proof.sentinel
  | .named mnemonic k => descriptorOf o mnemonic k

/-- `OPTABLE` (R104 to R109): five named slots, the rest from the open part. -/
def Config.optable (c : Config) (o : Slot) : OpcodeDescriptor :=
  if o = 0x00#6 then descriptorOf o "jmp" .jump
  else if o = 0x21#6 then descriptorOf o "lw" .register
  else if o = 0x3F#6 then if c.slot3fNamed then descriptorOf o "unk3F" .invalid else sentinel
  else if o = c.opcLoadHigh then descriptorOf o c.mnemLoadHigh c.classLoadHigh
  else if o = c.opcLoadAddr then descriptorOf o c.mnemLoadAddr .immediate
  else (c.other[o.toNat]'o.isLt).descriptor o

/-- R100, R101: `Lookup`, total over the 256 values of its `u8` argument. -/
def lookup (c : Config) (o : BitVec 8) : OpcodeDescriptor :=
  if o.toNat < 64 then c.optable (o.setWidth 6) else sentinel

/-- REFCFG (R7, R111), the spec's placeholder for the open parameters: no fact about the hardware. -/
def refcfg : Config where
  other := Vector.replicate 64 .sentinel
  opcLoadHigh := 0x06#6
  opcLoadAddr := 0x2B#6
  mnemLoadHigh := "_ldhi"
  mnemLoadAddr := "_lda"
  classLoadHigh := .immediate
  slot3fNamed := true
  shadowReset := Vector.replicate 31 0#32

end Sys2Proof
end

