-- ==== Sys2Proof/Syntax.lean ====
section
/-! DEFINITION. The instructions as syntax, one constructor per row of spec/opcode_table.json, and the record the decoder
makes of one (rule R30 of spec/10_state.md). -/

namespace Sys2Proof

/-- The operand fields of a word whose class is a parameter, one form per class (R63 to R66). -/
inductive Operands where
  /-- Register class (R63): rd, rs, rb and the 11-bit immediate field. -/
  | register (rd rs rb : RegIdx) (imm : BitVec 11)
  /-- Immediate class (R64): rd, rs and the 16-bit immediate field. -/
  | immediate (rd rs : RegIdx) (imm : BitVec 16)
  /-- Jump class (R65): the 26-bit immediate field. -/
  | jump (imm : BitVec 26)
  /-- Invalid class (R66): bits 25..0 of the word; the whole word is the slot number and these. -/
  | raw (low : BitVec 26)
  deriving DecidableEq, Repr

/-- One constructor per row of spec/opcode_table.json. -/
inductive Instr where
  /-- `jmp`, slot 0x00 (R123). -/
  | jmp (imm : BitVec 26)
  /-- `lw`, slot 0x21 (R124). -/
  | lw (rd rs rb : RegIdx) (imm : BitVec 11)
  /-- `unk3F`, slot 0x3F when `SLOT3F_NAMED` (R125); `low` is bits 25..0 of the word. -/
  | unk3F (low : BitVec 26)
  /-- The load-high kind, slot `OPC_LOAD_HIGH`, operands by `CLASS_LOAD_HIGH` (R126). -/
  | ldhi (ops : Operands)
  /-- The load-address kind, slot `OPC_LOAD_ADDR`, class Immediate (R127). -/
  | lda (rd rs : RegIdx) (imm : BitVec 16)
  /-- Any other slot `slot`, operands by the class of `OPTABLE[slot]`; `.dword` when that is the sentinel (R128). -/
  | dword (slot : Slot) (ops : Operands)
  deriving DecidableEq, Repr

/-- DecodedInstruction, the record (R30, R11): the register fields are `i16`, the immediate is the bits of an `i32`. -/
structure DecodedInstruction where
  opcodeId : Option Slot
  rd : BitVec 16
  rs : BitVec 16
  rb : BitVec 16
  imm : Word
  cls : InstructionClass
  desc : OpcodeDescriptor
  deriving DecidableEq, Repr

/-- Why the byte decoder rejects: no word is refused (R71), so the only reason is that there is no whole word. -/
inductive DecodeError where
  /-- Raised by `decodeBytes` on fewer than the 4 bytes of an instruction (R60). Safe: a Step always has 4 bytes (R40). -/
  | truncated
  deriving DecidableEq, Repr

end Sys2Proof
end

