-- ==== Sys2Proof/Decode.lean ====
section
/-! DEFINITION. The InstructionDecoder: the record algorithm of rule R120, the reading of a word as an instruction by the
layouts of spec/30_encoding.md, the record each instruction stands for (R123 to R128), and the encoder (R78). -/

namespace Sys2Proof

/-! ## The record algorithm -/

/-- R120 `Decode`, step by step. The branch for `o ≥ 64` cannot be reached (R129) and is kept as the spec keeps it. -/
def decodeRecord (c : Config) (word : Word) : DecodedInstruction :=
  let o := extract word specOpcode
  let desc := lookup c (o.setWidth 8)
  if o.toNat ≥ 64 then
    { opcodeId := none, rd := 0#16, rs := 0#16, rb := 0#16, imm := word, cls := .invalid, desc := desc }
  else
    { opcodeId := desc.opcodeId
      rd := (extract word desc.destinationSpec).setWidth 16
      rs := (extract word desc.sourceSpec).setWidth 16
      rb := (extract word desc.baseSpec).setWidth 16
      imm := signExtend (extract word desc.immediateSpec) desc.immediateSpec
      cls := desc.cls
      desc := desc }

/-! ## From words to instructions -/

/-- Bits 31..26, the primary opcode (R61). -/
def opcodeOf (word : Word) : Slot := word.extractLsb' 26 6

/-- Bits 25..0. -/
def low26 (word : Word) : BitVec 26 := word.extractLsb' 0 26

/-- Bits 25..21 (R63, R64). -/
def rdOf (word : Word) : RegIdx := word.extractLsb' 21 5

/-- Bits 20..16 (R63, R64). -/
def rsOf (word : Word) : RegIdx := word.extractLsb' 16 5

/-- Bits 15..11 (R63). -/
def rbOf (word : Word) : RegIdx := word.extractLsb' 11 5

/-- Bits 10..0 (R63). -/
def imm11Of (word : Word) : BitVec 11 := word.extractLsb' 0 11

/-- Bits 15..0 (R64). -/
def imm16Of (word : Word) : BitVec 16 := word.extractLsb' 0 16

/-- The operands of a word of class `k` (R63 to R66). -/
def operandsOf (k : InstructionClass) (word : Word) : Operands :=
  match k with
  | .register => .register (rdOf word) (rsOf word) (rbOf word) (imm11Of word)
  | .immediate => .immediate (rdOf word) (rsOf word) (imm16Of word)
  | .jump => .jump (low26 word)
  | .invalid => .raw (low26 word)

/-- The instruction a word is, under a configuration. Total: no word is refused (R71, R122). -/
def decode (c : Config) (word : Word) : Instr :=
  if opcodeOf word = 0x00#6 then .jmp (low26 word)
  else if opcodeOf word = 0x21#6 then .lw (rdOf word) (rsOf word) (rbOf word) (imm11Of word)
  else if opcodeOf word = 0x3F#6 ∧ c.slot3fNamed = true then .unk3F (low26 word)
  else if opcodeOf word = 0x3F#6 then .dword (opcodeOf word) (.raw (low26 word))
  else if opcodeOf word = c.opcLoadHigh then .ldhi (operandsOf c.classLoadHigh word)
  else if opcodeOf word = c.opcLoadAddr then .lda (rdOf word) (rsOf word) (imm16Of word)
  else .dword (opcodeOf word) (operandsOf (c.optable (opcodeOf word)).cls word)

/-- R41: big-endian, the byte at the lowest address is bits 31..24. -/
def wordOfBytes (b : Vector Byte 4) : Word :=
  (b[0].setWidth 32 <<< 24) ||| (b[1].setWidth 32 <<< 16) ||| (b[2].setWidth 32 <<< 8) ||| b[3].setWidth 32

/-- The four bytes of a word as the image holds them (R41). -/
def bytesOfWord (word : Word) : Vector Byte 4 :=
  #v[word.extractLsb' 24 8, word.extractLsb' 16 8, word.extractLsb' 8 8, word.extractLsb' 0 8]

/-- The decoder on any bytes: an instruction and the bytes after it, or a rejection by name. -/
def decodeBytes (c : Config) : List Byte → Except DecodeError (Instr × List Byte)
  | b0 :: b1 :: b2 :: b3 :: rest => .ok (decode c (wordOfBytes #v[b0, b1, b2, b3]), rest)
  | _ => .error .truncated

/-! ## The record of an instruction -/

/-- R68: `rd` as a class extracts it; 0 for a class without the field. -/
def Operands.rd : Operands → RegIdx
  | .register rd _ _ _ => rd
  | .immediate rd _ _ => rd
  | .jump _ => 0#5
  | .raw _ => 0#5

/-- R68: `rs` as a class extracts it; 0 for a class without the field. -/
def Operands.rs : Operands → RegIdx
  | .register _ rs _ _ => rs
  | .immediate _ rs _ => rs
  | .jump _ => 0#5
  | .raw _ => 0#5

/-- R68: `rb` as a class extracts it; 0 for a class without the field. -/
def Operands.rb : Operands → RegIdx
  | .register _ _ rb _ => rb
  | .immediate _ _ _ => 0#5
  | .jump _ => 0#5
  | .raw _ => 0#5

/-- R67: the immediate of a word of slot `o`: sign-extended in the three valid classes, the whole word in the Invalid one. -/
def Operands.imm (o : Slot) : Operands → Word
  | .register _ _ _ imm => imm.signExtend 32
  | .immediate _ _ imm => imm.signExtend 32
  | .jump imm => imm.signExtend 32
  | .raw low => o ++ low

/-- R123. -/
def jmpRecord (c : Config) (imm : BitVec 26) : DecodedInstruction where
  opcodeId := some 0x00#6
  rd := 0#16
  rs := 0#16
  rb := 0#16
  imm := imm.signExtend 32
  cls := .jump
  desc := c.optable 0x00#6

/-- R124. -/
def lwRecord (c : Config) (rd rs rb : RegIdx) (imm : BitVec 11) : DecodedInstruction where
  opcodeId := some 0x21#6
  rd := rd.setWidth 16
  rs := rs.setWidth 16
  rb := rb.setWidth 16
  imm := imm.signExtend 32
  cls := .register
  desc := c.optable 0x21#6

/-- R125. -/
def unk3FRecord (c : Config) (low : BitVec 26) : DecodedInstruction where
  opcodeId := some 0x3F#6
  rd := 0#16
  rs := 0#16
  rb := 0#16
  imm := 0x3F#6 ++ low
  cls := .invalid
  desc := c.optable 0x3F#6

/-- R126: `rd`, `rs`, `imm` as the slot's class extracts them. -/
def ldhiRecord (c : Config) (ops : Operands) : DecodedInstruction where
  opcodeId := some c.opcLoadHigh
  rd := ops.rd.setWidth 16
  rs := ops.rs.setWidth 16
  rb := ops.rb.setWidth 16
  imm := ops.imm c.opcLoadHigh
  cls := c.classLoadHigh
  desc := c.optable c.opcLoadHigh

/-- R127. -/
def ldaRecord (c : Config) (rd rs : RegIdx) (imm : BitVec 16) : DecodedInstruction where
  opcodeId := some c.opcLoadAddr
  rd := rd.setWidth 16
  rs := rs.setWidth 16
  rb := 0#16
  imm := imm.signExtend 32
  cls := .immediate
  desc := c.optable c.opcLoadAddr

/-- R128: what R120 gives from `OPTABLE[o]`. -/
def dwordRecord (c : Config) (o : Slot) (ops : Operands) : DecodedInstruction where
  opcodeId := (c.optable o).opcodeId
  rd := ops.rd.setWidth 16
  rs := ops.rs.setWidth 16
  rb := ops.rb.setWidth 16
  imm := ops.imm o
  cls := (c.optable o).cls
  desc := c.optable o

/-- The record an instruction stands for. -/
def Instr.record (c : Config) : Instr → DecodedInstruction
  | .jmp imm => jmpRecord c imm
  | .lw rd rs rb imm => lwRecord c rd rs rb imm
  | .unk3F low => unk3FRecord c low
  | .ldhi ops => ldhiRecord c ops
  | .lda rd rs imm => ldaRecord c rd rs imm
  | .dword o ops => dwordRecord c o ops

/-! ## The encoder -/

/-- Bits 25..0 of a word with these operands (R78). -/
def Operands.low : Operands → BitVec 26
  | .register rd rs rb imm => rd ++ rs ++ rb ++ imm
  | .immediate rd rs imm => rd ++ rs ++ imm
  | .jump imm => imm
  | .raw low => low

/-- The slot an instruction stands in. -/
def Instr.slot (c : Config) : Instr → Slot
  | .jmp _ => 0x00#6
  | .lw _ _ _ _ => 0x21#6
  | .unk3F _ => 0x3F#6
  | .ldhi _ => c.opcLoadHigh
  | .lda _ _ _ => c.opcLoadAddr
  | .dword o _ => o

/-- Bits 25..0 of an instruction's word. -/
def Instr.low : Instr → BitVec 26
  | .jmp imm => imm
  | .lw rd rs rb imm => (Operands.register rd rs rb imm).low
  | .unk3F low => low
  | .ldhi ops => ops.low
  | .lda rd rs imm => (Operands.immediate rd rs imm).low
  | .dword _ ops => ops.low

/-- R78: the word of an instruction, opcode in bits 31..26. -/
def encode (c : Config) (i : Instr) : Word := i.slot c ++ i.low

/-- The host's view of the decoder, under REFCFG (log 13): bit 0 of `w` is the least significant bit of the 32-bit word, and
bits from `nbits` up are 0. -/
def decodeTableWord (nbits w : Nat) : Option Instr :=
  match decodeBytes refcfg (bytesOfWord (BitVec.ofNat 32 (w % 2 ^ nbits))).toList with
  | .ok (i, _) => some i
  | .error _ => none

end Sys2Proof
end

