-- ==== Sys2Proof/Machine/Operands.lean ====
section
/-! DEFINITION. The operand operations over a record: the register a field names, the unsigned immediate, the jump target. -/

namespace Sys2Proof.Machine

/-- The shadow register an `i16` register field names (R68). R195: the field is 0..31 by construction, so taking its low 5 bits
loses nothing (log 11). -/
def regOf (r : BitVec 16) : RegIdx := r.setWidth 5

/-- R75: the immediate's unsigned field value, recovered with the descriptor's own mask brought down by its shift. -/
def unsignedImm (rec : DecodedInstruction) : Word :=
  rec.imm &&& (rec.desc.immediateSpec.mask >>> rec.desc.immediateSpec.shift)

/-- R176 `Target`: relative to the jump's own address, in words, modulo 2^64 (D17). -/
def target (imm : Word) (addr : Addr) : Addr := imm.signExtend 64 * 4#64 + addr

end Sys2Proof.Machine
end

