-- ==== Sys2Proof/Machine/RegisterShadow.lean ====
section
/-! DEFINITION. The RegisterShadow (spec/43_register_shadow.md): reading and writing `x`, its initial contents, and `Update`. -/

namespace Sys2Proof.Machine

/-- `x[i]` (R10). Register 0 is no special case here: it reads 0 because every `Update` writes 0 to it (R21, log 12). -/
def readX (x : Shadow) (i : RegIdx) : Word := x[i.toNat]'i.isLt

/-- `x[i] <- v` (R10). -/
def writeX (x : Shadow) (i : RegIdx) (v : Word) : Shadow := x.set i.toNat v i.isLt

/-- R25: the contents of a newly created shadow, `x[0] = 0` and `x[i] = SHADOW_RESET(i)`. -/
def initialShadow (c : Config) : Shadow :=
  Vector.ofFn fun i : Fin 32 => if h : i.val = 0 then 0#32 else c.shadowReset[i.val - 1]'(by omega)

/-- R152: the value a load-high writes, in 32-bit arithmetic that wraps (D13). -/
def loadHighValue (rs imm : Word) : Word := (rs + imm) <<< 16

/-- R153: the value a load-address writes; `field` is the unsigned immediate. -/
def loadAddrValue (rs field : Word) : Word := rs ^^^ field

/-- R150 without its last line: what the record's kind (R151, D14) writes. -/
def updateKind (c : Config) (x : Shadow) (rec : DecodedInstruction) : Shadow :=
  if rec.opcodeId = some c.opcLoadHigh then
    writeX x (regOf rec.rd) (loadHighValue (readX x (regOf rec.rs)) rec.imm)
  else if rec.opcodeId = some c.opcLoadAddr then
    writeX x (regOf rec.rd) (loadAddrValue (readX x (regOf rec.rs)) (unsignedImm rec))
  else x

/-- R150 `Update`: the kind's write, then the forced `x[0] <- 0` (R154). -/
def update (c : Config) (x : Shadow) (rec : DecodedInstruction) : Shadow :=
  writeX (updateKind c x rec) 0#5 0#32

end Sys2Proof.Machine
end

