-- ==== Sys2Proof/Machine/State.lean ====
section
/-! DEFINITION. The state of the block and of its interface, as plain data. State holds the spec's own state (`x`, `created`:
R13, R20, R25, R33), the configuration (constant: R7, R29), the host's side of the interface as inputs (R12, R131, R42) and the
outputs of the last Step (R131). -/

namespace Sys2Proof.Machine

/-- A call of one of the host's callbacks (R131). -/
inductive HostCall where
  /-- `read_memory(addr, buf, len)` (R40). -/
  | readMemory (addr : Addr) (len : Nat)
  /-- `report_memory_error(status, addr)` (R190). -/
  | reportMemoryError (status : Int) (addr : Addr)
  /-- `symbol_exists_at(a)` (R178). -/
  | symbolExistsAt (a : Addr)
  /-- `print_symbol_at(a)` (R178). -/
  | printSymbolAt (a : Addr)
  deriving DecidableEq, Repr

/-- What the host answers about one address in one Step (R178, U7, U11). -/
inductive SymbolReply where
  /-- `symbol_exists_at` is false. -/
  | absent
  /-- `symbol_exists_at` is true and `print_symbol_at` prints `form`, the host's own text. -/
  | printed (form : String)
  /-- `symbol_exists_at` never returns. -/
  | existsNeverReturns
  /-- `symbol_exists_at` is true and `print_symbol_at` never returns. -/
  | printNeverReturns
  deriving DecidableEq, Repr

/-- The inputs of one Step: the address (R131) and the host's answers to the callbacks of that Step. `status` is what
`read_memory` returns, `none` if it never returns (R192, U11); `fill` holds the bytes it delivers at the places of the buffer
for which the image lists none (log 6); an address `symbols` does not list has no symbol (log 8). -/
structure Call where
  addr : Addr
  status : Option Int
  fill : Vector Byte 4
  symbols : List (Addr × SymbolReply)
  reportReturns : Bool
  deriving DecidableEq, Repr

/-- What the outside world can do to the block, between Steps (R12, R48, R131). -/
inductive Input where
  /-- Start a session (R210). -/
  | reset
  /-- The host changes one byte of its image (R50). -/
  | imageWrite (addr : Addr) (byte : Byte)
  /-- Start a Step (R121). -/
  | call (c : Call)
  deriving DecidableEq, Repr

/-- The outcome of the last Step (R14, R131). -/
inductive StepOutput where
  /-- No Step yet. -/
  | idle
  /-- Completed: the record, the text line and the byte count (R121). -/
  | completed (rec : DecodedInstruction) (text : String) (len : Nat)
  /-- The fault `MemReadFail(status, addr)` (R190): no record, no text, no byte count (R191, R193). -/
  | memReadFail (status : Int) (addr : Addr)
  deriving DecidableEq, Repr

/-- What `MemRead(addr, 4)` gives (R40). -/
inductive MemReadResult where
  /-- Status 0 and the four bytes. -/
  | bytes (b : Vector Byte 4)
  /-- A non-zero status. -/
  | failed (status : Int)
  /-- The callback never returns (U11). -/
  | never
  deriving DecidableEq, Repr

/-- The host's target memory image (R42): the bytes it lists, by rising address. -/
abbrev Memory := List Host.Cell

/-- The state of the block, its configuration and its interface. -/
structure State where
  /-- The shadow registers (R20). -/
  x : Shadow
  /-- Whether this session's shadow has been created (R25). -/
  created : Bool
  /-- The opcode table and the open parameters (R7, R29): constant, no step changes it (log 1). -/
  cfg : Config
  /-- The host's memory image (R42). -/
  image : Memory
  /-- What the host does next, first first (R131, log 5). -/
  inputs : List Input
  /-- The inputs of the Step under way, or of the last one (log 10). -/
  call : Call
  /-- The outputs of the last Step (R131). -/
  out : StepOutput
  /-- The host callbacks of the last Step, first first (log 10). -/
  trace : List HostCall
  deriving DecidableEq, Repr

/-- Why the machine stops. A failed read is none of these: the block goes on after it (R202), so it is a next state (log 4). -/
inductive Fault where
  /-- Raised by `memRead`'s caller, by taking `MemReadFail` and by formatting: the Step made the callback `cb` and the host
  never returns from it, so the Step never ends (R196, U11). A stuck state that only the host's own answers cause. Safe: no
  next state is claimed where the source gives none. -/
  | callbackNeverReturns (cb : HostCall)
  deriving DecidableEq, Repr

/-- Why an instruction has no meaning. -/
inductive Refusal where
  /-- Raised by an arm of `exec` whose instruction has no meaning yet (none is left). Safe. -/
  | notModelled (mnemonic : String)
  deriving DecidableEq, Repr

/-- The interface latch before any Step (log 10): the model's own value. -/
def Call.initial : Call where
  addr := 0#64
  status := some 0
  fill := Vector.replicate 4 0#8
  symbols := []
  reportReturns := true

/-- R26: after reset `created` is false and `x` is `0, SHADOW_RESET(1), ...`; the configuration is REFCFG (log 1, 2); the host
has listed no byte and asked for nothing (log 5). -/
def State.reset : State where
  x := initialShadow refcfg
  created := false
  cfg := refcfg
  image := []
  inputs := []
  call := Call.initial
  out := .idle
  trace := []

end Sys2Proof.Machine
end

