-- ==== Sys2Proof/Machine/Flags.lean ====
section
/-! DEFINITION. The block has no flags or condition codes (R28), so no instruction computes one. Its one control bit is `created`
(R25); this file holds its only two transitions. -/

namespace Sys2Proof.Machine

/-- R25, R121: the first Step of a session creates the shadow. -/
def ensureCreated (s : State) : State :=
  if s.created then s else { s with created := true, x := initialShadow s.cfg }

/-- R210, R211: the start of a session clears `created` and touches nothing else. -/
def sessionReset (s : State) : State := { s with created := false }

end Sys2Proof.Machine
end

