-- ==== Sys2Proof/Machine/Formatter.lean ====
section
/-! DEFINITION. The Formatter (spec/44_formatter.md): number rendering (R171) and the text of the four classes. It reads the
record, the address, the host's answers and the shadow AFTER the update, and writes nothing (R181). -/

namespace Sys2Proof.Machine

/-- The digits of `n` in base `base`, most significant first, no padding, at least one digit, at most `fuel` digits. -/
def digitsIn (base : Nat) (digit : Nat → Char) : Nat → Nat → List Char
  | 0, _ => []
  | fuel + 1, n => if n < base then [digit n] else digitsIn base digit fuel (n / base) ++ [digit (n % base)]

/-- A decimal or lower-case hexadecimal digit (G2). -/
def lowerDigit (d : Nat) : Char := if d < 10 then Char.ofNat (48 + d) else Char.ofNat (87 + d)

/-- An upper-case hexadecimal digit (G2). -/
def upperDigit (d : Nat) : Char := if d < 10 then Char.ofNat (48 + d) else Char.ofNat (55 + d)

/-- `{rd}`, printed after `$`: decimal, no padding (R23, R171, D19). Five digits hold every `i16` that is not negative. -/
def decimal (n : Nat) : String := String.ofList (digitsIn 10 lowerDigit 5 n)

/-- `{v:x}`: lower-case hexadecimal, no prefix, no padding (R171, D28). Sixteen digits hold every `u64`. -/
def hexLower (n : Nat) : String := String.ofList (digitsIn 16 lowerDigit 16 n)

/-- `{v:04X}`: upper-case hexadecimal, padded with zeros on the left to at least 4 digits (R171, D28). -/
def hexUpper4 (n : Nat) : String := String.ofList ((digitsIn 16 upperDigit 16 n).leftpad 4 '0')

/-- `{sign}0x{|imm|:x}` (R171). -/
def signedHex (imm : Int) : String :=
  (if imm < 0 then "-" else "") ++ "0x" ++ hexLower imm.natAbs

/-- The host's answer about address `a` in this Step: the first entry that lists it, else no symbol (log 8). -/
def symbolReply (symbols : List (Addr × SymbolReply)) (a : Addr) : SymbolReply :=
  match symbols with
  | [] => .absent
  | (b, r) :: rest => if b = a then r else symbolReply rest a

/-- R174, R175: the symbol at `a`, or `a` in hexadecimal without a prefix (D20), with the callbacks made (R178); or the callback
that never returns. -/
def symbolOrHex (symbols : List (Addr × SymbolReply)) (a : Addr) : Except HostCall (String × List HostCall) :=
  match symbolReply symbols a with
  | .absent => .ok (hexLower a.toNat, [.symbolExistsAt a])
  | .printed form => .ok (form, [.symbolExistsAt a, .printSymbolAt a])
  | .existsNeverReturns => .error (.symbolExistsAt a)
  | .printNeverReturns => .error (.printSymbolAt a)

/-- The text of a line that ends in a comment: `before`, a tab, `// ` and the symbol or the address. -/
def withComment (before : String) (symbols : List (Addr × SymbolReply)) (a : Addr) :
    Except HostCall (String × List HostCall) :=
  match symbolOrHex symbols a with
  | .ok (t, calls) => .ok (before ++ "\t// " ++ t, calls)
  | .error cb => .error cb

/-- R172. -/
def registerText (rec : DecodedInstruction) : String :=
  rec.desc.mnemonic ++ " $" ++ decimal rec.rd.toNat ++ ", $" ++ decimal rec.rs.toNat ++ ", $" ++ decimal rec.rb.toNat ++
    ", " ++ signedHex rec.imm.toInt

/-- R173, without the load-address comment. -/
def immediateText (rec : DecodedInstruction) : String :=
  rec.desc.mnemonic ++ " $" ++ decimal rec.rd.toNat ++ ", $" ++ decimal rec.rs.toNat ++ ", " ++ signedHex rec.imm.toInt

/-- R175, before the comment; a negative displacement as its 32-bit two's complement (R180, D18). -/
def jumpText (rec : DecodedInstruction) : String :=
  rec.desc.mnemonic ++ " $pc+(" ++ hexLower rec.imm.toNat ++ "*4)"

/-- R177: `raw_word` is `u32(rec.imm)`. -/
def invalidText (rec : DecodedInstruction) : String :=
  rec.desc.mnemonic ++ " 0x" ++ hexUpper4 rec.imm.toNat

/-- R174: the reference address, `x[rd]` widened to 64 bits. -/
def referenceAddress (rec : DecodedInstruction) (x : Shadow) : Addr := (readX x (regOf rec.rd)).setWidth 64

/-- R170 `Format`: the line and the callbacks made for it, or the callback that never returns. -/
def format (c : Config) (rec : DecodedInstruction) (addr : Addr) (x : Shadow) (symbols : List (Addr × SymbolReply)) :
    Except HostCall (String × List HostCall) :=
  match rec.cls with
  | .register => .ok (registerText rec, [])
  | .immediate =>
    if rec.opcodeId = some c.opcLoadAddr then withComment (immediateText rec) symbols (referenceAddress rec x)
    else .ok (immediateText rec, [])
  | .jump => withComment (jumpText rec) symbols (target rec.imm addr)
  | .invalid => .ok (invalidText rec, [])

end Sys2Proof.Machine
end

