-- ==== Sys2Proof/Machine/Ops.lean ====
section
/-! DEFINITION. The shared operations: the memory image, the fetch, the start of a Step, taking `MemReadFail`, and the end of a
completed Step. -/

namespace Sys2Proof.Machine

/-! ## The image -/

/-- The byte the image lists at `a`, if any. What the host delivers for an address that is not listed is the call's (log 6). -/
def Memory.read (m : Memory) (a : Nat) : Option Byte :=
  match m with
  | [] => none
  | (b, v) :: rest => if b = a then some v else Memory.read rest a

/-- `m` with byte `v` listed at `a`, addresses kept strictly rising. -/
def Memory.write (m : Memory) (a : Nat) (v : Byte) : Memory :=
  match m with
  | [] => [(a, v)]
  | (b, w) :: rest =>
    if a < b then (a, v) :: (b, w) :: rest
    else if a = b then (a, v) :: rest
    else (b, w) :: Memory.write rest a v

/-- The addresses of `m` are all above `lo` (when given) and strictly rising, and below 2^64 (R42). -/
def Memory.wfAbove (lo : Option Nat) : Memory → Bool
  | [] => true
  | (a, _) :: rest =>
    (match lo with
      | none => true
      | some l => decide (l < a)) && decide (a < 2 ^ 64) && Memory.wfAbove (some a) rest

/-- The canonical form of the image: addresses strictly rising, all of them `u64`. -/
def Memory.wf (m : Memory) : Bool := Memory.wfAbove none m

/-- Byte `i` of the buffer that a successful read of `call` delivers: the image's byte at `addr + i`, else the host's own (log 6).
An address of 2^64 or more is in no image, so `addr + i` past the top is the host's as R43 says. -/
def fetchByte (m : Memory) (c : Call) (i : Fin 4) : Byte :=
  (Memory.read m (c.addr.toNat + i.val)).getD c.fill[i]

/-! ## The Step -/

/-- R40 `MemRead(addr, 4)` for the call under way. -/
def memRead (s : State) : MemReadResult :=
  match s.call.status with
  | none => .never
  | some status =>
    if status = 0 then .bytes (Vector.ofFn fun i => fetchByte s.image s.call i) else .failed status

/-- The start of a Step (R121): take the call, create the shadow if this is the session's first, ask for the four bytes. -/
def beginCall (c : Call) (rest : List Input) (s : State) : State :=
  ensureCreated { s with inputs := rest, call := c, trace := [.readMemory c.addr 4] }

/-- R190, R191, R201: taking the fault `MemReadFail`. The host is told once, nothing is saved, no vector is read, and `x` keeps
its values; there is no return from it (R201) because control is already the host's. -/
def takeMemReadFail (status : Int) (s : State) : Host.Outcome State Fault Refusal :=
  if s.call.reportReturns then
    .next { s with
      out := .memReadFail status s.call.addr
      trace := s.trace ++ [.reportMemoryError status s.call.addr] }
  else .fault (.callbackNeverReturns (.reportMemoryError status s.call.addr))

/-- The rest of a Step once the record is there (R121): `Update`, then `Format` on the updated shadow, then the outputs with byte
count 4 (R130). -/
def retire (rec : DecodedInstruction) (s : State) : Host.Outcome State Fault Refusal :=
  match format s.cfg rec s.call.addr (update s.cfg s.x rec) s.call.symbols with
  | .ok (text, calls) =>
    .next { s with x := update s.cfg s.x rec, out := .completed rec text 4, trace := s.trace ++ calls }
  | .error cb => .fault (.callbackNeverReturns cb)

end Sys2Proof.Machine
end

