-- ==== Sys2Proof/Machine/Jump.lean ====
section
/-! DEFINITION. The Jump family: `jmp`. The block transfers no control (R123, R221). -/

namespace Sys2Proof.Machine

/-- R123. -/
def execJmp (imm : BitVec 26) (s : State) : Host.Outcome State Fault Refusal :=
  retire (jmpRecord s.cfg imm) s

end Sys2Proof.Machine
end

