-- ==== Sys2Proof/Machine/LoadWord.lean ====
section
/-! DEFINITION. The Register family: `lw`. The block performs no load (R124, R42). -/

namespace Sys2Proof.Machine

/-- R124. -/
def execLw (rd rs rb : RegIdx) (imm : BitVec 11) (s : State) : Host.Outcome State Fault Refusal :=
  retire (lwRecord s.cfg rd rs rb imm) s

end Sys2Proof.Machine
end

