-- ==== Sys2Proof/Machine/OtherSlots.lean ====
section
/-! DEFINITION. The named Invalid slot `unk3F` and every slot the source does not name, `.dword` among them. -/

namespace Sys2Proof.Machine

/-- R125. -/
def execUnk3F (low : BitVec 26) (s : State) : Host.Outcome State Fault Refusal :=
  retire (unk3FRecord s.cfg low) s

/-- R128. -/
def execDword (o : Slot) (ops : Operands) (s : State) : Host.Outcome State Fault Refusal :=
  retire (dwordRecord s.cfg o ops) s

end Sys2Proof.Machine
end

