-- ==== Sys2Proof/Machine/ShadowKinds.lean ====
section
/-! DEFINITION. The two kinds that write a shadow register: load-high and load-address (R151). -/

namespace Sys2Proof.Machine

/-- R126: load-high, whose write is R152's. -/
def execLdhi (ops : Operands) (s : State) : Host.Outcome State Fault Refusal :=
  retire (ldhiRecord s.cfg ops) s

/-- R127: load-address, whose write is R153's and whose comment is R174's. -/
def execLda (rd rs : RegIdx) (imm : BitVec 16) (s : State) : Host.Outcome State Fault Refusal :=
  retire (ldaRecord s.cfg rd rs imm) s

end Sys2Proof.Machine
end

