-- ==== Sys2Proof/Machine/Dispatch.lean ====
section
/-! DEFINITION. One arm per constructor of Instr. -/

namespace Sys2Proof.Machine

def exec (i : Instr) (s : State) : Host.Outcome State Fault Refusal :=
  match i with
  | .jmp imm => Sys2Proof.Machine.execJmp imm s
  | .lw rd rs rb imm => Sys2Proof.Machine.execLw rd rs rb imm s
  | .unk3F low => Sys2Proof.Machine.execUnk3F low s
  | .ldhi ops => Sys2Proof.Machine.execLdhi ops s
  | .lda rd rs imm => Sys2Proof.Machine.execLda rd rs imm s
  | .dword o ops => Sys2Proof.Machine.execDword o ops s

end Sys2Proof.Machine
end

