-- ==== Sys2Proof/Machine/Step.lean ====
section
/-! DEFINITION. One step: the host's next input. A call is one `Step` of the block (R121). -/

namespace Sys2Proof.Machine

/-- A Step whose call has begun (R121): the fetch, then the fault or the instruction the fetched word is. -/
def runCall (s : State) : Host.Outcome State Fault Refusal :=
  match memRead s with
  | .never => .fault (.callbackNeverReturns (.readMemory s.call.addr 4))
  | .failed status => takeMemReadFail status s
  | .bytes b => exec (decode s.cfg (wordOfBytes b)) s

/-- The next thing that happens. With no input the block waits: a Step starts only when the host supplies an address (R12). -/
def step (s : State) : Host.Outcome State Fault Refusal :=
  match s.inputs with
  | [] => .next s
  | .reset :: rest => .next (sessionReset { s with inputs := rest })
  | .imageWrite a b :: rest => .next { s with inputs := rest, image := Memory.write s.image a.toNat b }
  | .call c :: rest => runCall (beginCall c rest s)

/-- Byte `i` of an instruction word, placed where the fetch of `addr` finds it: in the image when `addr + i` is an address. -/
def placeByte (addr : Addr) (b : Byte) (i : Nat) (m : Memory) : Memory :=
  if addr.toNat + i < 2 ^ 64 then Memory.write m (addr.toNat + i) b else m

/-- `c` with a read that succeeds, and with the bytes of `word` at the places of the buffer no image can list. -/
def Call.delivering (c : Call) (word : Word) : Call :=
  { c with
    status := some 0
    fill := Vector.ofFn fun i => if c.addr.toNat + i.val < 2 ^ 64 then c.fill[i] else (bytesOfWord word)[i] }

/-- The call the next step runs: the pending one, or one at address 0 put first. -/
def nextCall (s : State) : Call × List Input :=
  match s.inputs with
  | .call c :: rest => (c, rest)
  | other => (Call.initial, other)

/-- `s` with the instruction word `w` stored where `step` fetches its next instruction, and a call that fetches it (log 5, 13). -/
def State.withFetchWord (s : State) (nbits w : Nat) : State :=
  let word : Word := BitVec.ofNat 32 (w % 2 ^ nbits)
  let c := (nextCall s).1
  let b := bytesOfWord word
  { s with
    inputs := .call (c.delivering word) :: (nextCall s).2
    image := placeByte c.addr b[3] 3 (placeByte c.addr b[2] 2 (placeByte c.addr b[1] 1 (placeByte c.addr b[0] 0 s.image))) }

end Sys2Proof.Machine
end

