-- ==== Sys2Proof/WellFormed.lean ====
section
/-! DEFINITION. When a configuration meets the constraints of rules R7 and R112, and when an instruction is one that some
word decodes to under a configuration. -/

namespace Sys2Proof

/-- R32, R112: a mnemonic has 1 to 6 characters. -/
def mnemonicOk (m : String) : Bool :=
  decide (1 ≤ m.length) && decide (m.length ≤ 6)

/-- R112: an entry of the open part of the table is the sentinel or has a mnemonic of 1 to 6 characters. -/
def SlotEntry.ok : SlotEntry → Bool
  | .sentinel => true
  | .named mnemonic _ => mnemonicOk mnemonic

/-- R7, R107, R108: an opcode number that a kind may have. -/
def kindSlotOk (o : Slot) : Bool :=
  decide (o ≠ 0x00#6) && decide (o ≠ 0x21#6) && decide (o ≠ 0x3F#6)

/-- The constraints R7 puts on the open parameters. -/
def Config.wf (c : Config) : Bool :=
  kindSlotOk c.opcLoadHigh && kindSlotOk c.opcLoadAddr && decide (c.opcLoadHigh ≠ c.opcLoadAddr) &&
  mnemonicOk c.mnemLoadHigh && mnemonicOk c.mnemLoadAddr &&
  decide (c.classLoadHigh ≠ .invalid) && c.other.toList.all SlotEntry.ok

/-- The operand form is the one of the class (R74). -/
def Operands.fits (k : InstructionClass) : Operands → Bool
  | .register .. => decide (k = .register)
  | .immediate .. => decide (k = .immediate)
  | .jump _ => decide (k = .jump)
  | .raw _ => decide (k = .invalid)

/-- R128: a slot none of the named rows stands for. -/
def otherSlot (c : Config) (o : Slot) : Bool :=
  decide (o ≠ 0x00#6) && decide (o ≠ 0x21#6) && !(decide (o = 0x3F#6) && c.slot3fNamed) &&
  decide (o ≠ c.opcLoadHigh) && decide (o ≠ c.opcLoadAddr)

/-- The instruction is one that a word decodes to under `c`. -/
def Instr.wf (c : Config) : Instr → Bool
  | .jmp _ => true
  | .lw _ _ _ _ => true
  | .unk3F _ => c.slot3fNamed
  | .ldhi ops => ops.fits c.classLoadHigh
  | .lda _ _ _ => true
  | .dword o ops => otherSlot c o && ops.fits (c.optable o).cls

end Sys2Proof
end

