-- ==== Sys2Proof/Safety.lean ====
section
/-! DEFINITION. What the claims are stated in: which host answers let a Step end (R196), which address a line asks the host
about (R178), and the invariant of the machine. -/

namespace Sys2Proof.Machine

/-- The host answers about this address (R196, U11). -/
def SymbolReply.returns : SymbolReply → Bool
  | .absent => true
  | .printed _ => true
  | .existsNeverReturns => false
  | .printNeverReturns => false

/-- Every callback the host could be asked for in this call returns (R196). -/
def Call.returns (c : Call) : Bool :=
  c.status.isSome && c.reportReturns && c.symbols.all fun entry => entry.2.returns

/-- Every callback of an input returns. -/
def Input.returns : Input → Bool
  | .reset => true
  | .imageWrite _ _ => true
  | .call c => c.returns

/-- Every callback of every pending call returns: what R196 says a claim that every Step ends must assume. -/
def State.hostReturns (s : State) : Bool := s.inputs.all Input.returns

/-- R178: the one address the Formatter asks the host about, the target of a Jump record or the reference address of a
load-address record; no other record asks. -/
def askedAddress (c : Config) (rec : DecodedInstruction) (addr : Addr) (x : Shadow) : Option Addr :=
  match rec.cls with
  | .jump => some (target rec.imm addr)
  | .immediate => if rec.opcodeId = some c.opcLoadAddr then some ((readX x (regOf rec.rd)).setWidth 64) else none
  | .register => none
  | .invalid => none

/-- R178: the callbacks the Formatter makes about an address, given the host's answer. -/
def symbolCallbacks (a : Addr) : SymbolReply → List HostCall
  | .absent => [.symbolExistsAt a]
  | .existsNeverReturns => [.symbolExistsAt a]
  | .printed _ => [.symbolExistsAt a, .printSymbolAt a]
  | .printNeverReturns => [.symbolExistsAt a, .printSymbolAt a]

/-- A record a Step may put out under `c`: register fields 0..31 (R195), and class and number those of its descriptor, which is
the table's at some slot (R120, R112). -/
def recordOk (c : Config) (rec : DecodedInstruction) : Prop :=
  rec.rd.toNat < 32 ∧ rec.rs.toNat < 32 ∧ rec.rb.toNat < 32 ∧
    rec.cls = rec.desc.cls ∧ rec.opcodeId = rec.desc.opcodeId ∧ ∃ o : Slot, rec.desc = c.optable o

/-- An outcome a Step may put out: byte count 4 (R130), or a non-zero status (R190). -/
def outputOk (c : Config) : StepOutput → Prop
  | .idle => True
  | .completed rec _ len => len = 4 ∧ recordOk c rec
  | .memReadFail status _ => status ≠ 0

/-- The invariant every step keeps: the image is in canonical form, the configuration meets R7, a created shadow reads 0 at
register 0 (R21), and the outcome is one R14 allows. -/
structure State.Inv (s : State) : Prop where
  image_wf : Memory.wf s.image = true
  cfg_wf : s.cfg.wf = true
  zero_reads_zero : s.created = true → readX s.x 0#5 = 0#32
  out_ok : outputOk s.cfg s.out

/-- The run of `n` steps ends in no fault and no refusal. -/
def runsTo (n : Nat) (s t : State) : Prop := Host.Core.run core n s = .next t

end Sys2Proof.Machine
end

