-- ==== Sys2Proof/Certificates/Slice0/Obligations.lean ====
section
/-! DEFINITION. The statements for the provers. Each docstring names the rules of spec/ it formalises; where a clause rests on a
choice of the model or of the spec itself, it names the log entry or the decision. Statements hold for every configuration that
meets rule R7 unless they say otherwise: nothing rests on REFCFG but the sanity words of `DecodesSpecWords`. -/

open Sys2Proof Sys2Proof.Machine

/-! ## Extraction and decoding -/

/-- R62: the empty spec yields 0 whatever the word, and is the spec of every field a class does not have. -/
def Obligations.EmptySpecYieldsZero : Prop :=
  (∀ w : Word, extract w specEmpty = 0#32 ∧ field w specEmpty = 0#32) ∧
  specEmpty = ⟨0#32, 0#32, 0#32, 0#32⟩ ∧
  baseSpecOf .immediate = specEmpty ∧
  destinationSpecOf .jump = specEmpty ∧ sourceSpecOf .jump = specEmpty ∧ baseSpecOf .jump = specEmpty ∧
  destinationSpecOf .invalid = specEmpty ∧ sourceSpecOf .invalid = specEmpty ∧ baseSpecOf .invalid = specEmpty

/-- R93: for every spec of an `n`-bit field with sign bit `n - 1` and pattern all ones from bit `n` up, sign extension subtracts
`2^n` exactly when the sign bit is set, and the mask brings the unsigned field back; the three immediate specs are such. -/
def Obligations.SignExtensionRoundTrip : Prop :=
  (∀ (n : Nat) (spec : ArgumentSpec) (raw : Word), 0 < n → n ≤ 32 →
    spec.signBitMask = 1#32 <<< (n - 1) → spec.signExtendPattern = 0xFFFFFFFF#32 <<< n →
    (spec.mask >>> spec.shift).toNat = 2 ^ n - 1 → raw.toNat < 2 ^ n →
      (signExtend raw spec).toInt =
          (if 2 ^ (n - 1) ≤ raw.toNat then (raw.toNat : Int) - (2 : Int) ^ n else (raw.toNat : Int)) ∧
      signExtend raw spec &&& (spec.mask >>> spec.shift) = raw) ∧
  (∀ p ∈ [(11, specImm11), (16, specImm16), (26, specImm26)],
    p.2.signBitMask = 1#32 <<< (p.1 - 1) ∧ p.2.signExtendPattern = 0xFFFFFFFF#32 <<< p.1 ∧
    (p.2.mask >>> p.2.shift).toNat = 2 ^ p.1 - 1)

/-- R67: the immediate of a record, by its class: the sign-extended field of the class, in the range of the class; the whole word
for an Invalid record. -/
def Obligations.ImmediateOfEachClass : Prop :=
  ∀ (c : Config) (w : Word),
    match (decodeRecord c w).cls with
    | .register => (decodeRecord c w).imm.toInt = (w.extractLsb' 0 11).toInt ∧
        -1024 ≤ (decodeRecord c w).imm.toInt ∧ (decodeRecord c w).imm.toInt ≤ 1023
    | .immediate => (decodeRecord c w).imm.toInt = (w.extractLsb' 0 16).toInt ∧
        -32768 ≤ (decodeRecord c w).imm.toInt ∧ (decodeRecord c w).imm.toInt ≤ 32767
    | .jump => (decodeRecord c w).imm.toInt = (w.extractLsb' 0 26).toInt ∧
        -33554432 ≤ (decodeRecord c w).imm.toInt ∧ (decodeRecord c w).imm.toInt ≤ 33554431
    | .invalid => (decodeRecord c w).imm = w

/-- R195: every register field of every record is 0..31 and indexes `x` within bounds: the index loses nothing of it. -/
def Obligations.RegisterFieldsInRange : Prop :=
  ∀ (c : Config) (w : Word),
    (decodeRecord c w).rd.toNat < 32 ∧ (decodeRecord c w).rs.toNat < 32 ∧ (decodeRecord c w).rb.toNat < 32 ∧
    (regOf (decodeRecord c w).rd).toNat = (decodeRecord c w).rd.toNat ∧
    (regOf (decodeRecord c w).rs).toNat = (decodeRecord c w).rs.toNat ∧
    (regOf (decodeRecord c w).rb).toNat = (decodeRecord c w).rb.toNat

/-- R60, R71, R122: the byte decoder answers exactly when there are the four bytes of an instruction, whatever they are, takes
four, and its answer is an instruction of the configuration; with fewer it rejects by name. -/
def Obligations.EveryWordDecodes : Prop :=
  ∀ (c : Config) (bs : List Byte), c.wf = true →
    (4 ≤ bs.length → ∃ i, decodeBytes c bs = .ok (i, bs.drop 4) ∧ i.wf c = true) ∧
    (bs.length < 4 → decodeBytes c bs = .error .truncated)

/-- R78 with R63 to R66: decoding an encoded well-formed instruction gives it back, every operand at every value. -/
def Obligations.DecodeOfEncodeIsIdentity : Prop :=
  ∀ (c : Config) (i : Instr), c.wf = true → i.wf c = true → decode c (encode c i) = i

/-- R73, R78: encoding what a word decodes to gives the word back: no bit of any word is dropped. -/
def Obligations.EncodeOfDecodeIsIdentity : Prop :=
  ∀ (c : Config) (w : Word), encode c (decode c w) = w

/-- R73: two different words never give the same record. -/
def Obligations.DifferentWordsDifferentRecords : Prop :=
  ∀ (c : Config) (w w' : Word), decodeRecord c w = decodeRecord c w' → w = w'

/-- R120 with R123 to R128: the record of the instruction a word decodes to is the record the algorithm makes of the word. -/
def Obligations.InstructionRecordsAreTheAlgorithms : Prop :=
  ∀ (c : Config) (w : Word), (decode c w).record c = decodeRecord c w

/-- R112 with R104 to R108: what a well-formed configuration's table holds at every slot. -/
def Obligations.OpcodeTableWellFormed : Prop :=
  ∀ c : Config, c.wf = true →
    (∀ o : Slot, c.optable o = sentinel ∨
      (c.optable o).opcodeId = some o ∧ 1 ≤ (c.optable o).mnemonic.length ∧ (c.optable o).mnemonic.length ≤ 6 ∧
      (c.optable o).destinationSpec = destinationSpecOf (c.optable o).cls ∧
      (c.optable o).sourceSpec = sourceSpecOf (c.optable o).cls ∧
      (c.optable o).baseSpec = baseSpecOf (c.optable o).cls ∧
      (c.optable o).immediateSpec = immediateSpecOf (c.optable o).cls) ∧
    c.optable 0x00#6 = descriptorOf 0x00#6 "jmp" .jump ∧
    c.optable 0x21#6 = descriptorOf 0x21#6 "lw" .register ∧
    (c.slot3fNamed = true → c.optable 0x3F#6 = descriptorOf 0x3F#6 "unk3F" .invalid) ∧
    (c.slot3fNamed = false → c.optable 0x3F#6 = sentinel) ∧
    c.optable c.opcLoadHigh = descriptorOf c.opcLoadHigh c.mnemLoadHigh c.classLoadHigh ∧
    c.optable c.opcLoadAddr = descriptorOf c.opcLoadAddr c.mnemLoadAddr .immediate ∧
    [0x00#6, 0x21#6, 0x3F#6, c.opcLoadHigh, c.opcLoadAddr].Nodup ∧
    (∀ o : Slot, ((c.optable o).opcodeId = some c.opcLoadHigh → o = c.opcLoadHigh) ∧
      ((c.optable o).opcodeId = some c.opcLoadAddr → o = c.opcLoadAddr))

/-- R101: a lookup of 64 or more gives the sentinel, and the decoder never asks for one. -/
def Obligations.LookupOutOfRangeIsSentinel : Prop :=
  ∀ c : Config,
    (∀ o : BitVec 8, 64 ≤ o.toNat →
      lookup c o = sentinel ∧ (lookup c o).mnemonic = ".dword" ∧ (lookup c o).cls = .invalid) ∧
    (∀ w : Word, (extract w specOpcode).toNat ≤ 63)

/-- Words written out from the encodings of R123 to R128 (spec/95_test_vectors.md V4), under REFCFG, the spec's placeholder for the
open parameters (log 1). -/
def Obligations.DecodesSpecWords : Prop :=
  decode refcfg 0b00000000000000000000000000000001#32 = .jmp 1 ∧
  decode refcfg 0b10000100010000111010000000000101#32 = .lw 2 3 20 5 ∧
  decode refcfg 0b11111100000000001011111011101111#32 = .unk3F 0xBEEF ∧
  decode refcfg 0b00011000011000000001001000110100#32 = .ldhi (.immediate 3 0 0x1234) ∧
  decode refcfg 0b10101100001000101000000000000001#32 = .lda 1 2 0x8001 ∧
  decode refcfg 0b00010010001101000101011001111000#32 = .dword 4 (.raw 0x2345678)

/-- R41: big-endian; the lowest byte holds bits 31..24, with them the primary opcode, and the top two bits of the next field. -/
def Obligations.InstructionWordIsBigEndian : Prop :=
  ∀ b : Vector Byte 4,
    (wordOfBytes b).toNat = b[0].toNat * 2 ^ 24 + b[1].toNat * 2 ^ 16 + b[2].toNat * 2 ^ 8 + b[3].toNat ∧
    (opcodeOf (wordOfBytes b)).toNat = b[0].toNat / 4 ∧
    (wordOfBytes b).toNat / 2 ^ 24 % 4 = b[0].toNat % 4

/-! ## The shadow update -/

/-- R152: a load-high record writes `(x[rs] + imm) << 16`, whose high half is the low half of the sum and whose low half is zero, so
the sign extension of `imm` does not matter; with `rd = 0` nothing lasts; no other register changes. -/
def Obligations.LoadHighUpdate : Prop :=
  ∀ (c : Config) (x : Shadow) (rec : DecodedInstruction), rec.opcodeId = some c.opcLoadHigh →
    let sum := readX x (regOf rec.rs) + rec.imm
    (regOf rec.rd ≠ 0#5 →
      readX (update c x rec) (regOf rec.rd) = sum <<< 16 ∧
      (readX (update c x rec) (regOf rec.rd)).toNat = sum.toNat % 2 ^ 16 * 2 ^ 16 ∧
      readX (update c x rec) (regOf rec.rd) = (readX x (regOf rec.rs) + (rec.imm &&& 0xFFFF#32)) <<< 16) ∧
    (∀ i : RegIdx, i ≠ 0#5 → i ≠ regOf rec.rd → readX (update c x rec) i = readX x i) ∧
    readX (update c x rec) 0#5 = 0#32

/-- R153: a load-address record (class Immediate, so with the Immediate class specs, R108) writes `x[rs] xor (imm & 0xFFFF)`: the
high half of `x[rs]` passes through; with `rd = 0` nothing lasts; no other register changes. -/
def Obligations.LoadAddressUpdate : Prop :=
  ∀ (c : Config) (x : Shadow) (rec : DecodedInstruction), c.wf = true →
    rec.opcodeId = some c.opcLoadAddr → rec.desc = c.optable c.opcLoadAddr →
    (regOf rec.rd ≠ 0#5 →
      readX (update c x rec) (regOf rec.rd) = readX x (regOf rec.rs) ^^^ (rec.imm &&& 0xFFFF#32) ∧
      (readX (update c x rec) (regOf rec.rd)).extractLsb' 16 16 = (readX x (regOf rec.rs)).extractLsb' 16 16) ∧
    (∀ i : RegIdx, i ≠ 0#5 → i ≠ regOf rec.rd → readX (update c x rec) i = readX x i) ∧
    readX (update c x rec) 0#5 = 0#32

/-- R155 (with R151): the record of any word whose slot is neither kind's leaves `x[1..31]` unchanged. -/
def Obligations.OtherRecordsLeaveShadow : Prop :=
  ∀ (c : Config) (x : Shadow) (w : Word), opcodeOf w ≠ c.opcLoadHigh → opcodeOf w ≠ c.opcLoadAddr →
    ∀ i : RegIdx, i ≠ 0#5 → readX (update c x (decodeRecord c w)) i = readX x i

/-- R154: register 0 reads 0 immediately after any instruction, for all prior states and all instruction kinds. -/
def Obligations.RegisterZeroAfterEveryInstruction : Prop :=
  ∀ (i : Instr) (s t : State), exec i s = .next t → readX t.x 0#5 = 0#32

/-! ## What each instruction does -/

/-- R123, R175, R176: `jmp` completes with its record, writes no register but the forced zero, and prints its target (a symbol, or the
address). The `0x`-less target and the text of a negative displacement are the spec's own decisions D18, D20 (log 14). -/
def Obligations.JmpCompletes : Prop :=
  ∀ (s : State) (imm : BitVec 26), s.cfg.wf = true →
    let tgt : Addr := imm.signExtend 64 * 4#64 + s.call.addr
    let rec' : DecodedInstruction :=
      { opcodeId := some 0x00#6, rd := 0#16, rs := 0#16, rb := 0#16, imm := imm.signExtend 32, cls := .jump, desc := s.cfg.optable 0x00#6 }
    let line := "jmp" ++ " $pc+(" ++ hexLower (imm.signExtend 32).toNat ++ "*4)" ++ "\t// "
    (symbolReply s.call.symbols tgt = .absent →
      exec (.jmp imm) s = .next { s with
        x := writeX s.x 0#5 0#32
        out := .completed rec' (line ++ hexLower tgt.toNat) 4
        trace := s.trace ++ [.symbolExistsAt tgt] }) ∧
    (∀ form, symbolReply s.call.symbols tgt = .printed form →
      exec (.jmp imm) s = .next { s with
        x := writeX s.x 0#5 0#32
        out := .completed rec' (line ++ form) 4
        trace := s.trace ++ [.symbolExistsAt tgt, .printSymbolAt tgt] })

/-- R124, R172: `lw` completes with its record and text, asks the host nothing, performs no load and writes no register but the forced
zero. -/
def Obligations.LwCompletes : Prop :=
  ∀ (s : State) (rd rs rb : RegIdx) (imm : BitVec 11), s.cfg.wf = true →
    exec (.lw rd rs rb imm) s = .next { s with
      x := writeX s.x 0#5 0#32
      out := .completed
        { opcodeId := some 0x21#6, rd := rd.setWidth 16, rs := rs.setWidth 16, rb := rb.setWidth 16,
          imm := imm.signExtend 32, cls := .register, desc := s.cfg.optable 0x21#6 }
        ("lw" ++ " $" ++ decimal rd.toNat ++ ", $" ++ decimal rs.toNat ++ ", $" ++ decimal rb.toNat ++ ", " ++
          ((if imm.toInt < 0 then "-" else "") ++ "0x" ++ hexLower imm.toInt.natAbs)) 4 }

/-- R125, R177: `unk3F`, in a configuration that names slot 0x3F, completes with the whole word as the record's immediate. -/
def Obligations.Unk3FCompletes : Prop :=
  ∀ (s : State) (low : BitVec 26), s.cfg.wf = true → s.cfg.slot3fNamed = true →
    exec (.unk3F low) s = .next { s with
      x := writeX s.x 0#5 0#32
      out := .completed
        { opcodeId := some 0x3F#6, rd := 0#16, rs := 0#16, rb := 0#16, imm := 0x3F#6 ++ low, cls := .invalid,
          desc := s.cfg.optable 0x3F#6 }
        ("unk3F" ++ " 0x" ++ hexUpper4 (0x3F#6 ++ low).toNat) 4 }

/-- R126, R152, R173: load-high of class Immediate completes: the record, the register, the text with no symbol comment. -/
def Obligations.LdhiImmediateCompletes : Prop :=
  ∀ (s : State) (rd rs : RegIdx) (imm : BitVec 16), s.cfg.wf = true → s.cfg.classLoadHigh = .immediate →
    exec (.ldhi (.immediate rd rs imm)) s = .next { s with
      x := writeX (writeX s.x rd ((readX s.x rs + imm.signExtend 32) <<< 16)) 0#5 0#32
      out := .completed
        { opcodeId := some s.cfg.opcLoadHigh, rd := rd.setWidth 16, rs := rs.setWidth 16, rb := 0#16,
          imm := imm.signExtend 32, cls := .immediate, desc := s.cfg.optable s.cfg.opcLoadHigh }
        (s.cfg.mnemLoadHigh ++ " $" ++ decimal rd.toNat ++ ", $" ++ decimal rs.toNat ++ ", " ++
          ((if imm.toInt < 0 then "-" else "") ++ "0x" ++ hexLower imm.toInt.natAbs)) 4 }

/-- R126, R152, R172: load-high of class Register completes. -/
def Obligations.LdhiRegisterCompletes : Prop :=
  ∀ (s : State) (rd rs rb : RegIdx) (imm : BitVec 11), s.cfg.wf = true → s.cfg.classLoadHigh = .register →
    exec (.ldhi (.register rd rs rb imm)) s = .next { s with
      x := writeX (writeX s.x rd ((readX s.x rs + imm.signExtend 32) <<< 16)) 0#5 0#32
      out := .completed
        { opcodeId := some s.cfg.opcLoadHigh, rd := rd.setWidth 16, rs := rs.setWidth 16, rb := rb.setWidth 16,
          imm := imm.signExtend 32, cls := .register, desc := s.cfg.optable s.cfg.opcLoadHigh }
        (s.cfg.mnemLoadHigh ++ " $" ++ decimal rd.toNat ++ ", $" ++ decimal rs.toNat ++ ", $" ++ decimal rb.toNat ++ ", " ++
          ((if imm.toInt < 0 then "-" else "") ++ "0x" ++ hexLower imm.toInt.natAbs)) 4 }

/-- R126, R152, R175: load-high of class Jump has no register fields, so it writes register 0, which is forced back to 0; its line
is a Jump line. -/
def Obligations.LdhiJumpCompletes : Prop :=
  ∀ (s : State) (imm : BitVec 26), s.cfg.wf = true → s.cfg.classLoadHigh = .jump →
    let tgt : Addr := imm.signExtend 64 * 4#64 + s.call.addr
    let rec' : DecodedInstruction :=
      { opcodeId := some s.cfg.opcLoadHigh, rd := 0#16, rs := 0#16, rb := 0#16, imm := imm.signExtend 32, cls := .jump,
        desc := s.cfg.optable s.cfg.opcLoadHigh }
    let line := s.cfg.mnemLoadHigh ++ " $pc+(" ++ hexLower (imm.signExtend 32).toNat ++ "*4)" ++ "\t// "
    (symbolReply s.call.symbols tgt = .absent →
      exec (.ldhi (.jump imm)) s = .next { s with
        x := writeX s.x 0#5 0#32
        out := .completed rec' (line ++ hexLower tgt.toNat) 4
        trace := s.trace ++ [.symbolExistsAt tgt] }) ∧
    (∀ form, symbolReply s.call.symbols tgt = .printed form →
      exec (.ldhi (.jump imm)) s = .next { s with
        x := writeX s.x 0#5 0#32
        out := .completed rec' (line ++ form) 4
        trace := s.trace ++ [.symbolExistsAt tgt, .printSymbolAt tgt] })

/-- R127, R153, R173, R174, R218: load-address completes; its comment names the reference address `x[rd]` read AFTER the update (0 when
`rd = 0`), widened to 64 bits (D21, log 21). -/
def Obligations.LdaCompletes : Prop :=
  ∀ (s : State) (rd rs : RegIdx) (imm : BitVec 16), s.cfg.wf = true →
    let value : Word := readX s.x rs ^^^ imm.setWidth 32
    let ref : Addr := if rd = 0#5 then 0#64 else value.setWidth 64
    let rec' : DecodedInstruction :=
      { opcodeId := some s.cfg.opcLoadAddr, rd := rd.setWidth 16, rs := rs.setWidth 16, rb := 0#16, imm := imm.signExtend 32,
        cls := .immediate, desc := s.cfg.optable s.cfg.opcLoadAddr }
    let line := s.cfg.mnemLoadAddr ++ " $" ++ decimal rd.toNat ++ ", $" ++ decimal rs.toNat ++ ", " ++
      ((if imm.toInt < 0 then "-" else "") ++ "0x" ++ hexLower imm.toInt.natAbs) ++ "\t// "
    (symbolReply s.call.symbols ref = .absent →
      exec (.lda rd rs imm) s = .next { s with
        x := writeX (writeX s.x rd value) 0#5 0#32
        out := .completed rec' (line ++ hexLower ref.toNat) 4
        trace := s.trace ++ [.symbolExistsAt ref] }) ∧
    (∀ form, symbolReply s.call.symbols ref = .printed form →
      exec (.lda rd rs imm) s = .next { s with
        x := writeX (writeX s.x rd value) 0#5 0#32
        out := .completed rec' (line ++ form) 4
        trace := s.trace ++ [.symbolExistsAt ref, .printSymbolAt ref] })

/-- R128, R177, R194: any word of a slot that is Invalid and not a named row (the sentinel, or a named Invalid slot of the open table)
completes with the whole word as immediate and the slot's mnemonic, `.dword` for the sentinel. -/
def Obligations.DwordInvalidCompletes : Prop :=
  ∀ (s : State) (o : Slot) (low : BitVec 26), s.cfg.wf = true → (Instr.dword o (.raw low)).wf s.cfg = true →
    exec (.dword o (.raw low)) s = .next { s with
      x := writeX s.x 0#5 0#32
      out := .completed
        { opcodeId := (s.cfg.optable o).opcodeId, rd := 0#16, rs := 0#16, rb := 0#16, imm := o ++ low, cls := .invalid,
          desc := s.cfg.optable o }
        ((s.cfg.optable o).mnemonic ++ " 0x" ++ hexUpper4 (o ++ low).toNat) 4 } ∧
    (s.cfg.optable o = sentinel → (s.cfg.optable o).mnemonic = ".dword" ∧ (s.cfg.optable o).opcodeId = none)

/-- R128, R172, R173, R155: a slot the source does not name, of class Register or Immediate in the open table, completes: no symbol
is asked for and no register but the forced zero is written. -/
def Obligations.DwordRegisterAndImmediateComplete : Prop :=
  ∀ (s : State) (o : Slot), s.cfg.wf = true →
    (∀ (rd rs rb : RegIdx) (imm : BitVec 11), (Instr.dword o (.register rd rs rb imm)).wf s.cfg = true →
      exec (.dword o (.register rd rs rb imm)) s = .next { s with
        x := writeX s.x 0#5 0#32
        out := .completed
          { opcodeId := some o, rd := rd.setWidth 16, rs := rs.setWidth 16, rb := rb.setWidth 16,
            imm := imm.signExtend 32, cls := .register, desc := s.cfg.optable o }
          ((s.cfg.optable o).mnemonic ++ " $" ++ decimal rd.toNat ++ ", $" ++ decimal rs.toNat ++ ", $" ++ decimal rb.toNat ++
            ", " ++ ((if imm.toInt < 0 then "-" else "") ++ "0x" ++ hexLower imm.toInt.natAbs)) 4 }) ∧
    (∀ (rd rs : RegIdx) (imm : BitVec 16), (Instr.dword o (.immediate rd rs imm)).wf s.cfg = true →
      exec (.dword o (.immediate rd rs imm)) s = .next { s with
        x := writeX s.x 0#5 0#32
        out := .completed
          { opcodeId := some o, rd := rd.setWidth 16, rs := rs.setWidth 16, rb := 0#16,
            imm := imm.signExtend 32, cls := .immediate, desc := s.cfg.optable o }
          ((s.cfg.optable o).mnemonic ++ " $" ++ decimal rd.toNat ++ ", $" ++ decimal rs.toNat ++ ", " ++
            ((if imm.toInt < 0 then "-" else "") ++ "0x" ++ hexLower imm.toInt.natAbs)) 4 })

/-- R128, R175, R182: a slot the source does not name, of class Jump in the open table, completes with its own mnemonic and the
target. -/
def Obligations.DwordJumpCompletes : Prop :=
  ∀ (s : State) (o : Slot) (imm : BitVec 26), s.cfg.wf = true → (Instr.dword o (.jump imm)).wf s.cfg = true →
    let tgt : Addr := imm.signExtend 64 * 4#64 + s.call.addr
    let rec' : DecodedInstruction :=
      { opcodeId := some o, rd := 0#16, rs := 0#16, rb := 0#16, imm := imm.signExtend 32, cls := .jump, desc := s.cfg.optable o }
    let line := (s.cfg.optable o).mnemonic ++ " $pc+(" ++ hexLower (imm.signExtend 32).toNat ++ "*4)" ++ "\t// "
    (symbolReply s.call.symbols tgt = .absent →
      exec (.dword o (.jump imm)) s = .next { s with
        x := writeX s.x 0#5 0#32
        out := .completed rec' (line ++ hexLower tgt.toNat) 4
        trace := s.trace ++ [.symbolExistsAt tgt] }) ∧
    (∀ form, symbolReply s.call.symbols tgt = .printed form →
      exec (.dword o (.jump imm)) s = .next { s with
        x := writeX s.x 0#5 0#32
        out := .completed rec' (line ++ form) 4
        trace := s.trace ++ [.symbolExistsAt tgt, .printSymbolAt tgt] })

/-- Frame of `jmp`, `lw`, `unk3F` and `.dword` (R22, R155, R46, R103, R221): every register but 0 is unchanged, so are `created`, the
configuration, every byte of the image, the pending inputs and the call. They store nothing. -/
def Obligations.FrameOfInstructionsOfNoKind : Prop :=
  ∀ (i : Instr) (s t : State), s.cfg.wf = true → i.wf s.cfg = true →
    (∀ ops, i ≠ .ldhi ops) → (∀ rd rs imm, i ≠ .lda rd rs imm) → exec i s = .next t →
      (∀ r : RegIdx, r ≠ 0#5 → readX t.x r = readX s.x r) ∧
      t.created = s.created ∧ t.cfg = s.cfg ∧ t.inputs = s.inputs ∧ t.call = s.call ∧
      (∀ a : Nat, Memory.read t.image a = Memory.read s.image a)

/-- Frame of load-high and load-address (R22, R46, R103): every register but the destination and 0 is unchanged, so are `created`, the
configuration, every byte of the image, the pending inputs and the call. They store nothing. -/
def Obligations.FrameOfShadowKinds : Prop :=
  ∀ (s t : State),
    (∀ ops : Operands, exec (.ldhi ops) s = .next t →
      (∀ r : RegIdx, r ≠ 0#5 → r ≠ ops.rd → readX t.x r = readX s.x r) ∧
      t.created = s.created ∧ t.cfg = s.cfg ∧ t.inputs = s.inputs ∧ t.call = s.call ∧
      (∀ a : Nat, Memory.read t.image a = Memory.read s.image a)) ∧
    (∀ (rd rs : RegIdx) (imm : BitVec 16), exec (.lda rd rs imm) s = .next t →
      (∀ r : RegIdx, r ≠ 0#5 → r ≠ rd → readX t.x r = readX s.x r) ∧
      t.created = s.created ∧ t.cfg = s.cfg ∧ t.inputs = s.inputs ∧ t.call = s.call ∧
      (∀ a : Nat, Memory.read t.image a = Memory.read s.image a))

/-- R158: a load-high with `rs = 0` and field `H`, then a load-address with `rd = rs` the same register and field `L`, leave
`(H << 16) | L` in it. Register 0 reading 0 is the invariant of `StepKeepsInvariant`. -/
def Obligations.AddressFormingPair : Prop :=
  ∀ (s t u : State) (rd : RegIdx) (h l : BitVec 16), s.cfg.wf = true → rd ≠ 0#5 → readX s.x 0#5 = 0#32 →
    exec (.ldhi (.immediate rd 0#5 h)) s = .next t → exec (.lda rd rd l) t = .next u →
      readX u.x rd = (h.setWidth 32 <<< 16) ||| l.setWidth 32

/-- R214: running an instruction twice applies its update twice, which for the two kinds gives the same shadow when `rd ≠ rs`, and
when `rd = rs` need not. Register 0 reading 0 is the invariant of `StepKeepsInvariant`. -/
def Obligations.RepeatedInstructionIsIdempotentUnlessSourceIsDestination : Prop :=
  (∀ (s t u : State), s.cfg.wf = true → readX s.x 0#5 = 0#32 →
    (∀ ops : Operands, ops.rd ≠ ops.rs → exec (.ldhi ops) s = .next t → exec (.ldhi ops) t = .next u → u.x = t.x) ∧
    (∀ (rd rs : RegIdx) (imm : BitVec 16), rd ≠ rs →
      exec (.lda rd rs imm) s = .next t → exec (.lda rd rs imm) t = .next u → u.x = t.x)) ∧
  (∃ (s t u : State) (rd : RegIdx) (imm : BitVec 16), s.cfg.wf = true ∧
    exec (.lda rd rd imm) s = .next t ∧ exec (.lda rd rd imm) t = .next u ∧ u.x ≠ t.x)

/-! ## Text -/

/-- R176 (modulo 2^64 is D17): the target is `imm * 4 + addr`, reaches from `addr - 134217728` to `addr + 134217724`, and has the low
two bits of `addr`. -/
def Obligations.JumpTargetArithmetic : Prop :=
  ∀ (imm : BitVec 26) (addr : Addr),
    ((target (imm.signExtend 32) addr).toNat : Int) = (imm.toInt * 4 + addr.toNat) % 2 ^ 64 ∧
    -134217728 ≤ imm.toInt * 4 ∧ imm.toInt * 4 ≤ 134217724 ∧
    (target (imm.signExtend 32) addr).toNat % 4 = addr.toNat % 4

/-- R171: lower-case hexadecimal reads back as the number, with no padding and at least one digit, for every `u64`. -/
def Obligations.HexadecimalReadsBack : Prop :=
  ∀ n : Nat, n < 2 ^ 64 →
    (hexLower n).toList.foldl (fun v d => v * 16 + (if d.toNat < 58 then d.toNat - 48 else d.toNat - 87)) 0 = n ∧
    (∀ d ∈ (hexLower n).toList, ('0' ≤ d ∧ d ≤ '9') ∨ ('a' ≤ d ∧ d ≤ 'f')) ∧
    (hexLower n).toList ≠ [] ∧ (n ≠ 0 → (hexLower n).toList.head? ≠ some '0')

/-- R171: the raw word in upper-case hexadecimal reads back as the word and has at least 4 digits, more than 4 only without
padding. -/
def Obligations.RawWordReadsBack : Prop :=
  ∀ w : Word,
    (hexUpper4 w.toNat).toList.foldl (fun v d => v * 16 + (if d.toNat < 58 then d.toNat - 48 else d.toNat - 55)) 0 = w.toNat ∧
    (∀ d ∈ (hexUpper4 w.toNat).toList, ('0' ≤ d ∧ d ≤ '9') ∨ ('A' ≤ d ∧ d ≤ 'F')) ∧
    4 ≤ (hexUpper4 w.toNat).length ∧
    (4 < (hexUpper4 w.toNat).length → (hexUpper4 w.toNat).toList.head? ≠ some '0')

/-- R23, R171: a register index reads back from its decimal text, `0` to `31`. -/
def Obligations.RegisterNumberReadsBack : Prop :=
  ∀ r : RegIdx,
    (decimal r.toNat).toList.foldl (fun v d => v * 10 + (d.toNat - 48)) 0 = r.toNat ∧
    (decimal r.toNat).length = if r.toNat < 10 then 1 else 2

/-- R180, the spec's own decision D18 (log 14): a negative Jump displacement prints with eight digits. -/
def Obligations.NegativeDisplacementHasEightDigits : Prop :=
  ∀ imm : BitVec 26, imm.toInt < 0 → (hexLower (imm.signExtend 32).toNat).length = 8

/-! ## The Step -/

/-- R121: when the host calls, the read succeeds and the four bytes decode to `i`, the step is `exec i` at the state whose call has
begun: the input taken, the shadow created if it is the first Step, the read recorded. -/
def Obligations.StepRunsTheDecodedInstruction : Prop :=
  ∀ (s : State) (c : Call) (rest : List Input) (i : Instr), s.inputs = .call c :: rest → c.status = some 0 →
    decode s.cfg (wordOfBytes (Vector.ofFn fun k => fetchByte s.image c k)) = i →
      step s = exec i { s with
        inputs := rest
        call := c
        created := true
        x := if s.created then s.x else initialShadow s.cfg
        trace := [.readMemory c.addr 4] }

/-- R121 whole, with R190 and R191 for the failed read, and the hang of R196 (log 7): a Step is its pseudocode, over the record
algorithm of R120 and with no instruction syntax in between. -/
def Obligations.StepRefinesPseudocode : Prop :=
  ∀ (s : State) (c : Call) (rest : List Input), s.inputs = .call c :: rest →
    let x₀ := if s.created then s.x else initialShadow s.cfg
    step s =
      match c.status with
      | none => .fault (.callbackNeverReturns (.readMemory c.addr 4))
      | some status =>
        if status ≠ 0 then
          if c.reportReturns then
            .next { s with
              inputs := rest, call := c, created := true, x := x₀, out := .memReadFail status c.addr
              trace := [.readMemory c.addr 4, .reportMemoryError status c.addr] }
          else .fault (.callbackNeverReturns (.reportMemoryError status c.addr))
        else
          let word := wordOfBytes (Vector.ofFn fun k => fetchByte s.image c k)
          let x₁ := update s.cfg x₀ (decodeRecord s.cfg word)
          match format s.cfg (decodeRecord s.cfg word) c.addr x₁ c.symbols with
          | .ok (text, calls) =>
            .next { s with
              inputs := rest, call := c, created := true, x := x₁, out := .completed (decodeRecord s.cfg word) text 4
              trace := .readMemory c.addr 4 :: calls }
          | .error cb => .fault (.callbackNeverReturns cb)

/-- R25: the first Step of a session is the Step of a block whose shadow holds 0 and `SHADOW_RESET`, whatever `x` held. -/
def Obligations.FirstStepCreatesShadow : Prop :=
  ∀ (s : State) (c : Call) (rest : List Input), s.created = false → s.inputs = .call c :: rest →
    ∃ x₀ : Shadow, readX x₀ 0#5 = 0#32 ∧
      (∀ k : Fin 31, readX x₀ (BitVec.ofNat 5 (k.val + 1)) = s.cfg.shadowReset[k]) ∧
      step s = step { s with created := true, x := x₀ } ∧ ∀ t, step s = .next t → t.created = true

/-- R210, R211: the host's reset clears `created` and touches nothing else (the input itself is used up). -/
def Obligations.ResetClearsCreatedOnly : Prop :=
  ∀ (s : State) (rest : List Input), s.inputs = .reset :: rest →
    step s = .next { s with inputs := rest, created := false }

/-- R26: what reset leaves: `created` false, `x[0] = 0`, and in `x[1..31]` the configuration's `SHADOW_RESET`. Nothing is said of the
numbers REFCFG gives (log 1, 2). -/
def Obligations.ResetState : Prop :=
  State.reset.created = false ∧ readX State.reset.x 0#5 = 0#32 ∧
  ∀ i : Fin 31, readX State.reset.x (BitVec.ofNat 5 (i.val + 1)) = State.reset.cfg.shadowReset[i]

/-- R190, R191: a read that fails. The host is told once, with its status and the address; no record, no update, no text; `x` keeps
its values (those of a new shadow when this is the first Step). Taken as a next state: R202 has the block go on (log 4). -/
def Obligations.FailedReadIsTaken : Prop :=
  ∀ (s : State) (c : Call) (rest : List Input) (status : Int), s.inputs = .call c :: rest → c.status = some status →
    status ≠ 0 → c.reportReturns = true →
      step s = .next { s with
        inputs := rest
        call := c
        created := true
        x := if s.created then s.x else initialShadow s.cfg
        out := .memReadFail status c.addr
        trace := [.readMemory c.addr 4, .reportMemoryError status c.addr] }

/-- R202: after a fault the block is ready for the next Step exactly as before: the next call gives what it would have given had the
failing call never been made. -/
def Obligations.ReadyAfterFault : Prop :=
  ∀ (s t : State) (c c' : Call) (rest : List Input) (status : Int),
    s.inputs = .call c :: .call c' :: rest → c.status = some status → status ≠ 0 → step s = .next t →
      ∀ u, step t = .next u ↔ step { s with inputs := .call c' :: rest } = .next u

/-- R45 (the callbacks return): a zero status always leads to a completed Step, whatever the bytes and wherever the address; a
non-zero status is the fault, with its status and address (R190). That the fault is a next state is the model's choice (log 4), from
R190 and R202: the block goes on after it. -/
def Obligations.ZeroStatusAlwaysCompletes : Prop :=
  ∀ (s : State) (c : Call) (rest : List Input) (status : Int), s.inputs = .call c :: rest → c.returns = true →
    c.status = some status →
      (status = 0 → ∃ t rec' text, step s = .next t ∧ t.out = .completed rec' text 4) ∧
      (status ≠ 0 → ∃ t, step s = .next t ∧ t.out = .memReadFail status c.addr)

/-- R196, U11: a Step ends if and only if each callback it makes returns: the read; the report when the read failed; and for a line
that asks about an address, the host's answers about that address. -/
def Obligations.StepEndsIffCallbacksReturn : Prop :=
  ∀ (s : State) (c : Call) (rest : List Input), s.inputs = .call c :: rest →
    let word := wordOfBytes (Vector.ofFn fun k => fetchByte s.image c k)
    let x₁ := update s.cfg (if s.created then s.x else initialShadow s.cfg) (decodeRecord s.cfg word)
    ((∃ t, step s = .next t) ↔
      ∃ status, c.status = some status ∧
        (status ≠ 0 → c.reportReturns = true) ∧
        (status = 0 → ∀ a, askedAddress s.cfg (decodeRecord s.cfg word) c.addr x₁ = some a →
          (symbolReply c.symbols a).returns = true))

/-- R14: no step is refused, and none stops but in a callback that never returns. -/
def Obligations.NoStepIsRefused : Prop :=
  ∀ s : State, (∀ r, step s ≠ .refused r) ∧
    (∀ f, step s = .fault f → ∃ c rest cb, s.inputs = .call c :: rest ∧ c.returns = false ∧ f = .callbackNeverReturns cb)

/-- R44: one read of length 4 per Step, first, and no other. -/
def Obligations.OneFourByteReadPerStep : Prop :=
  ∀ (s t : State) (c : Call) (rest : List Input), s.inputs = .call c :: rest → step s = .next t →
    ∃ later, t.trace = .readMemory c.addr 4 :: later ∧ ∀ a n, HostCall.readMemory a n ∉ later

/-- R46: the block never writes memory: every byte of the image reads after a Step as before it. -/
def Obligations.BlockNeverWritesMemory : Prop :=
  ∀ (s t : State) (c : Call) (rest : List Input), s.inputs = .call c :: rest → step s = .next t →
    (∀ a : Nat, Memory.read t.image a = Memory.read s.image a) ∧ t.image = s.image

/-- R178: the symbol callbacks of a completed Step: none for a record that is neither Jump nor load-address; else `symbol_exists_at`
once, and `print_symbol_at` of the same address only after a true answer. -/
def Obligations.SymbolCallbacksOfAStep : Prop :=
  ∀ (s t : State) (c : Call) (rest : List Input), s.inputs = .call c :: rest → c.status = some 0 → step s = .next t →
    let rec' := decodeRecord s.cfg (wordOfBytes (Vector.ofFn fun k => fetchByte s.image c k))
    t.trace = .readMemory c.addr 4 ::
      match askedAddress s.cfg rec' c.addr t.x with
      | none => []
      | some a => symbolCallbacks a (symbolReply c.symbols a)

/-- R50: a Step sees what the image holds at the time of its call, with no fence: a byte the host changed since is the one fetched. -/
def Obligations.FetchSeesTheHostsChange : Prop :=
  ∀ (s t : State) (a : Addr) (b : Byte) (c : Call) (rest : List Input),
    s.inputs = .imageWrite a b :: .call c :: rest → c.status = some 0 → step s = .next t →
      t.x = s.x ∧ t.created = s.created ∧ t.cfg = s.cfg ∧ t.out = s.out ∧
      step t = exec (decode s.cfg (wordOfBytes (Vector.ofFn fun k =>
        if c.addr.toNat + k.val = a.toNat then b else fetchByte s.image c k))) (beginCall c rest t)

/-- R122, R214: the record and the byte count are a function of the word alone: two blocks that fetch the same word put out the same
record, whatever their shadows, sessions and addresses. -/
def Obligations.RecordDoesNotDependOnShadow : Prop :=
  ∀ (s s' t t' : State) (c c' : Call) (rest rest' : List Input),
    s.inputs = .call c :: rest → s'.inputs = .call c' :: rest' → s.cfg = s'.cfg →
    c.status = some 0 → c'.status = some 0 →
    (∀ k, fetchByte s.image c k = fetchByte s'.image c' k) → step s = .next t → step s' = .next t' →
      ∃ rec' text text', t.out = .completed rec' text 4 ∧ t'.out = .completed rec' text' 4

/-- R43: the address plays no part in decoding or in the shadow, aligned or not: two calls at different addresses that deliver the same
bytes leave the same shadow. -/
def Obligations.AlignmentDoesNotMatter : Prop :=
  ∀ (s s' t t' : State) (c c' : Call) (rest rest' : List Input),
    s.inputs = .call c :: rest → s'.inputs = .call c' :: rest' → s.cfg = s'.cfg → s.x = s'.x → s.created = s'.created →
    c.status = c'.status → (∀ k, fetchByte s.image c k = fetchByte s'.image c' k) →
    step s = .next t → step s' = .next t' → t.x = t'.x

/-- R22, R155: in a session, a register other than 0 changes only by a Step that fetched a load-high or a load-address of that
destination. -/
def Obligations.OnlyTheTwoKindsChangeTheShadow : Prop :=
  ∀ (s t : State) (r : RegIdx), s.cfg.wf = true → s.created = true → r ≠ 0#5 → step s = .next t →
    readX t.x r ≠ readX s.x r →
      ∃ c rest, s.inputs = .call c :: rest ∧ c.status = some 0 ∧
        ((∃ ops : Operands, ops.rd = r ∧
            decode s.cfg (wordOfBytes (Vector.ofFn fun k => fetchByte s.image c k)) = .ldhi ops) ∨
          (∃ rs imm, decode s.cfg (wordOfBytes (Vector.ofFn fun k => fetchByte s.image c k)) = .lda r rs imm))

/-- R103: no instruction, no reset and no host action changes the opcode table (or any other parameter). -/
def Obligations.OpcodeTableNeverChanges : Prop :=
  ∀ s t : State, step s = .next t → t.cfg = s.cfg ∧ ∀ o, lookup t.cfg o = lookup s.cfg o

/-- The model's own convention (log 5), from R12: with no input the block waits, and the host's change of its image changes one byte
and nothing of the block. -/
def Obligations.HostActionsLeaveTheBlockAlone : Prop :=
  ∀ s : State, (s.inputs = [] → step s = .next s) ∧
    (∀ a b rest, s.inputs = .imageWrite a b :: rest →
      ∃ t, step s = .next t ∧ t.x = s.x ∧ t.created = s.created ∧ t.cfg = s.cfg ∧ t.call = s.call ∧ t.out = s.out ∧
        t.trace = s.trace ∧ t.inputs = rest ∧ Memory.read t.image a.toNat = some b ∧
        ∀ a', a' ≠ a.toNat → Memory.read t.image a' = Memory.read s.image a')

/-- The model's own convention (log 13): the very next step after `withFetchWord` runs exactly the placed word's instruction. -/
def Obligations.PlacedWordRuns : Prop :=
  ∀ (s : State) (w : Word), Memory.wf s.image = true →
    ∃ (c : Call) (rest : List Input), (s.withFetchWord 32 w.toNat).inputs = .call c :: rest ∧
      step (s.withFetchWord 32 w.toNat) = exec (decode s.cfg w) (beginCall c rest (s.withFetchWord 32 w.toNat))

/-! ## Invariants and runs -/

/-- `State.reset` meets the invariant. -/
def Obligations.ResetMeetsInvariant : Prop := State.reset.Inv

/-- Every step from every state that meets the invariant gives a state that meets it: the image stays canonical, the configuration
well-formed, a created shadow reads 0 at register 0 (R21, R154), and the outcome is a record with fields 0..31 and byte count 4
(R30, R130, R195) or a fault with a non-zero status (R190). -/
def Obligations.StepKeepsInvariant : Prop :=
  ∀ s t : State, s.Inv → step s = .next t → t.Inv

/-- R14, R122, R196: a host whose callbacks return sees the block run on for ever: no word, address or status stops a run. -/
def Obligations.NoRunStops : Prop :=
  ∀ (s : State), s.hostReturns = true → ∀ n : Nat, ∃ t, runsTo n s t ∧ t.hostReturns = true
end

