-- ==== Sys2Proof/Laws/Config.lean ====
section
/-! SUPPORT. What a well-formed configuration gives, and the descriptors of the five named slots (R104 to R108). -/

namespace Sys2Proof

theorem Config.wf_loadHigh {c : Config} (h : c.wf = true) :
    c.opcLoadHigh ≠ 0x00#6 ∧ c.opcLoadHigh ≠ 0x21#6 ∧ c.opcLoadHigh ≠ 0x3F#6 := by
  simp [Config.wf, kindSlotOk] at h
  tauto

theorem Config.wf_loadAddr {c : Config} (h : c.wf = true) :
    c.opcLoadAddr ≠ 0x00#6 ∧ c.opcLoadAddr ≠ 0x21#6 ∧ c.opcLoadAddr ≠ 0x3F#6 := by
  simp [Config.wf, kindSlotOk] at h
  tauto

theorem Config.wf_kinds_differ {c : Config} (h : c.wf = true) : c.opcLoadHigh ≠ c.opcLoadAddr := by
  simp [Config.wf] at h
  tauto

theorem Config.wf_classLoadHigh {c : Config} (h : c.wf = true) : c.classLoadHigh ≠ .invalid := by
  simp [Config.wf] at h
  tauto

@[simp] theorem Config.optable_jmp (c : Config) : c.optable 0x00#6 = descriptorOf 0x00#6 "jmp" .jump := rfl

@[simp] theorem Config.optable_lw (c : Config) : c.optable 0x21#6 = descriptorOf 0x21#6 "lw" .register := rfl

theorem Config.optable_3F (c : Config) :
    c.optable 0x3F#6 = if c.slot3fNamed then descriptorOf 0x3F#6 "unk3F" .invalid else sentinel := rfl

theorem Config.optable_loadHigh {c : Config} (h : c.wf = true) :
    c.optable c.opcLoadHigh = descriptorOf c.opcLoadHigh c.mnemLoadHigh c.classLoadHigh := by
  obtain ⟨h₀, h₁, h₂⟩ := Config.wf_loadHigh h
  simp only [Config.optable, h₀, h₁, h₂, if_false, if_true]

theorem Config.optable_loadAddr {c : Config} (h : c.wf = true) :
    c.optable c.opcLoadAddr = descriptorOf c.opcLoadAddr c.mnemLoadAddr .immediate := by
  obtain ⟨h₀, h₁, h₂⟩ := Config.wf_loadAddr h
  have h₃ : c.opcLoadAddr ≠ c.opcLoadHigh := Ne.symm (Config.wf_kinds_differ h)
  simp only [Config.optable, h₀, h₁, h₂, h₃, if_false, if_true]

/-- Every slot holds the sentinel or a descriptor of its own (the form R112 gives every entry). -/
theorem Config.optable_cases (c : Config) (o : Slot) :
    c.optable o = sentinel ∨ ∃ m k, c.optable o = descriptorOf o m k := by
  unfold Config.optable
  split
  · exact .inr ⟨_, _, rfl⟩
  split
  · exact .inr ⟨_, _, rfl⟩
  split
  · split
    · exact .inr ⟨_, _, rfl⟩
    · exact .inl rfl
  split
  · exact .inr ⟨_, _, rfl⟩
  split
  · exact .inr ⟨_, _, rfl⟩
  cases c.other[o.toNat]'o.isLt with
  | sentinel => exact .inl rfl
  | named m k => exact .inr ⟨m, k, rfl⟩

/-- A slot's number in its descriptor is the slot or `NONE` (R112): no other slot has the number of a kind. -/
theorem Config.optable_opcodeId (c : Config) (o : Slot) :
    (c.optable o).opcodeId = none ∨ (c.optable o).opcodeId = some o := by
  rcases c.optable_cases o with h | ⟨m, k, h⟩
  · exact .inl (by rw [h]; rfl)
  · exact .inr (by rw [h]; rfl)

theorem refcfg_wf : refcfg.wf = true := by decide

end Sys2Proof
end

