-- ==== Sys2Proof/Laws/Decode.lean ====
section
/-! SUPPORT. Small lemmas of the decoder and the encoder: the fields of a word put together are the word, and the fields of a
word that was put together are what was put in. -/

namespace Sys2Proof

@[simp] theorem opcodeOf_append (o : Slot) (l : BitVec 26) : opcodeOf (o ++ l) = o := by
  simp only [opcodeOf]
  apply BitVec.eq_of_getLsbD_eq
  intro i hi
  simp only [BitVec.getLsbD_extractLsb', BitVec.getLsbD_append]
  have : ¬ (26 + i < 26) := by omega
  simp [hi, this]

@[simp] theorem low26_append (o : Slot) (l : BitVec 26) : low26 (o ++ l) = l := by
  simp only [low26]
  apply BitVec.eq_of_getLsbD_eq
  intro i hi
  simp only [BitVec.getLsbD_extractLsb', BitVec.getLsbD_append]
  simp [hi]

/-- A word is its opcode and its low 26 bits. -/
theorem opcodeOf_append_low26 (w : Word) : opcodeOf w ++ low26 w = w := by
  apply BitVec.eq_of_getLsbD_eq
  intro i hi
  simp only [opcodeOf, low26, BitVec.getLsbD_append, BitVec.getLsbD_extractLsb']
  by_cases h : i < 26
  · simp [h]
  · have h6 : i - 26 < 6 := by omega
    have e : 26 + (i - 26) = i := by omega
    simp [h, h6, e]

/-- The opcode bits of an encoded instruction are its slot. -/
@[simp] theorem opcodeOf_encode (c : Config) (i : Instr) : opcodeOf (encode c i) = i.slot c :=
  opcodeOf_append _ _

/-- The low 26 bits of an encoded instruction are its fields. -/
@[simp] theorem low26_encode (c : Config) (i : Instr) : low26 (encode c i) = i.low :=
  low26_append _ _

/-- A decoder that has four bytes rejects nothing, and leaves the rest. -/
theorem decodeBytes_four (c : Config) (b0 b1 b2 b3 : Byte) (rest : List Byte) :
    decodeBytes c (b0 :: b1 :: b2 :: b3 :: rest) = .ok (decode c (wordOfBytes #v[b0, b1, b2, b3]), rest) := rfl

end Sys2Proof
end

