-- ==== Sys2Proof/Laws/Format.lean ====
section
/-! SUPPORT. What the Formatter can answer, once. -/

namespace Sys2Proof.Machine

/-- A line with a comment: which answer of the host gives which line and which callbacks (R174, R175, R178). -/
theorem withComment_cases (before : String) (symbols : List (Addr × SymbolReply)) (a : Addr) :
    (symbolReply symbols a = .absent ∧
      withComment before symbols a = .ok (before ++ "\t// " ++ hexLower a.toNat, [.symbolExistsAt a])) ∨
    (∃ form, symbolReply symbols a = .printed form ∧
      withComment before symbols a = .ok (before ++ "\t// " ++ form, [.symbolExistsAt a, .printSymbolAt a])) ∨
    (symbolReply symbols a = .existsNeverReturns ∧ withComment before symbols a = .error (.symbolExistsAt a)) ∨
    (symbolReply symbols a = .printNeverReturns ∧ withComment before symbols a = .error (.printSymbolAt a)) := by
  unfold withComment symbolOrHex
  cases h : symbolReply symbols a <;> simp

theorem withComment_absent {before : String} {symbols : List (Addr × SymbolReply)} {a : Addr}
    (h : symbolReply symbols a = .absent) :
    withComment before symbols a = .ok (before ++ "\t// " ++ hexLower a.toNat, [.symbolExistsAt a]) := by
  simp [withComment, symbolOrHex, h]

theorem withComment_printed {before : String} {symbols : List (Addr × SymbolReply)} {a : Addr} {form : String}
    (h : symbolReply symbols a = .printed form) :
    withComment before symbols a = .ok (before ++ "\t// " ++ form, [.symbolExistsAt a, .printSymbolAt a]) := by
  simp [withComment, symbolOrHex, h]

/-- A host that answers about every address it lists answers about every address. -/
theorem symbolReply_returns {symbols : List (Addr × SymbolReply)} (h : symbols.all (fun e => e.2.returns) = true)
    (a : Addr) : (symbolReply symbols a).returns = true := by
  induction symbols with
  | nil => rfl
  | cons e rest ih =>
    obtain ⟨b, r⟩ := e
    simp only [List.all_cons, Bool.and_eq_true] at h
    unfold symbolReply
    split
    · exact h.1
    · exact ih h.2

/-- A record that is not asked about prints without the host: no callback, and it cannot hang. -/
theorem format_of_not_asked {c : Config} {rec : DecodedInstruction} {addr : Addr} {x : Shadow}
    (symbols : List (Addr × SymbolReply)) (h : askedAddress c rec addr x = none) :
    ∃ text, format c rec addr x symbols = .ok (text, []) := by
  unfold askedAddress at h
  unfold format
  cases hk : rec.cls <;> simp only [hk] at h ⊢
  · exact ⟨_, rfl⟩
  · split at h
    · cases h
    · rename_i hne
      exact ⟨_, by rw [if_neg hne]⟩
  · cases h
  · exact ⟨_, rfl⟩

/-- A record that is asked about is a line with a comment at the asked address (R178). -/
theorem format_of_asked {c : Config} {rec : DecodedInstruction} {addr a : Addr} {x : Shadow}
    (symbols : List (Addr × SymbolReply)) (h : askedAddress c rec addr x = some a) :
    ∃ before, format c rec addr x symbols = withComment before symbols a := by
  unfold askedAddress at h
  unfold format
  cases hk : rec.cls <;> simp only [hk] at h ⊢
  · cases h
  · split at h
    · rename_i he
      cases h
      exact ⟨_, by rw [if_pos he]; rfl⟩
    · cases h
  · cases h
    exact ⟨_, rfl⟩
  · cases h

end Sys2Proof.Machine
end

