-- ==== Sys2Proof/Laws/Memory.lean ====
section
/-! SUPPORT. The laws of the memory image: a read after a write, and the canonical form, which every operation keeps. -/

namespace Sys2Proof.Machine

/-- Reading where a byte was just listed gives that byte. -/
@[simp] theorem Memory.read_write_same (m : Memory) (a : Nat) (v : Byte) :
    Memory.read (Memory.write m a v) a = some v := by
  induction m with
  | nil => simp [Memory.write, Memory.read]
  | cons e rest ih =>
    obtain ⟨b, w⟩ := e
    unfold Memory.write
    split
    · simp [Memory.read]
    · split
      · simp [Memory.read]
      · rename_i h₁ h₂
        simp [Memory.read, Ne.symm h₂, ih]

/-- A write leaves every other address as it was. -/
theorem Memory.read_write_other (m : Memory) {a a' : Nat} (v : Byte) (h : a' ≠ a) :
    Memory.read (Memory.write m a v) a' = Memory.read m a' := by
  induction m with
  | nil => simp [Memory.write, Memory.read, Ne.symm h]
  | cons e rest ih =>
    obtain ⟨b, w⟩ := e
    unfold Memory.write
    split
    · simp [Memory.read, Ne.symm h]
    · split
      · rename_i h₁ h₂
        subst h₂
        simp [Memory.read, Ne.symm h]
      · simp only [Memory.read, ih]

/-- Listing a byte at an address above `lo` keeps the addresses above `lo`, strictly rising and below 2^64. -/
theorem Memory.wfAbove_write {m : Memory} {lo : Option Nat} {a : Nat} (v : Byte)
    (hm : Memory.wfAbove lo m = true) (ha : a < 2 ^ 64) (hlo : ∀ l, lo = some l → l < a) :
    Memory.wfAbove lo (Memory.write m a v) = true := by
  induction m generalizing lo with
  | nil => cases lo <;> simp_all [Memory.write, Memory.wfAbove]
  | cons e rest ih =>
    obtain ⟨b, w⟩ := e
    simp only [Memory.wfAbove, Bool.and_eq_true, decide_eq_true_eq] at hm
    obtain ⟨⟨hb, hb64⟩, hrest⟩ := hm
    unfold Memory.write
    split
    · rename_i hab
      cases lo <;> simp_all [Memory.wfAbove]
    · split
      · rename_i h₁ h₂
        subst h₂
        cases lo <;> simp_all [Memory.wfAbove]
      · rename_i h₁ h₂
        have hr := ih hrest (by intro l hl; simp only [Option.some.injEq] at hl; omega)
        cases lo <;> simp_all [Memory.wfAbove]

/-- Every write the model makes keeps the canonical form. -/
theorem Memory.wf_write {m : Memory} {a : Nat} (v : Byte) (hm : Memory.wf m = true) (ha : a < 2 ^ 64) :
    Memory.wf (Memory.write m a v) = true :=
  Memory.wfAbove_write v hm ha (by simp)

/-- A canonical image lists no address past the `u64` ones. -/
theorem Memory.read_of_wfAbove {m : Memory} {lo : Option Nat} {a : Nat} (hm : Memory.wfAbove lo m = true)
    (ha : 2 ^ 64 ≤ a) : Memory.read m a = none := by
  induction m generalizing lo with
  | nil => rfl
  | cons e rest ih =>
    obtain ⟨b, w⟩ := e
    simp only [Memory.wfAbove, Bool.and_eq_true, decide_eq_true_eq] at hm
    have hne : b ≠ a := by omega
    simp [Memory.read, hne, ih hm.2]

theorem Memory.wf_reset : Memory.wf State.reset.image = true := rfl

/-- Placing a fetched byte keeps the canonical form. -/
theorem Memory.wf_placeByte {m : Memory} (addr : Addr) (b : Byte) (i : Nat) (hm : Memory.wf m = true) :
    Memory.wf (placeByte addr b i m) = true := by
  unfold placeByte
  split
  · exact Memory.wf_write b hm ‹_›
  · exact hm

/-- Placing an instruction word keeps the canonical form. -/
theorem Memory.wf_withFetchWord {s : State} (n w : Nat) (hm : Memory.wf s.image = true) :
    Memory.wf (s.withFetchWord n w).image = true := by
  simp only [State.withFetchWord]
  repeat' apply Memory.wf_placeByte
  exact hm

end Sys2Proof.Machine
end

