-- ==== Sys2Proof/Laws/PerInstr.lean ====
section
/-! SUPPORT. Statements made of every instruction as syntax, one lemma per constructor. -/

namespace Sys2Proof.Laws.RecordFields

/-- The record of an instruction holds the instruction's own register fields: every one is a 5-bit value (R68, R195). -/
def Statement (i : Instr) : Prop :=
  ∀ c : Config, (i.record c).rd.toNat < 32 ∧ (i.record c).rs.toNat < 32 ∧ (i.record c).rb.toNat < 32

theorem setWidth_lt (r : RegIdx) : (r.setWidth 16).toNat < 32 := by
  have := r.isLt
  simp only [BitVec.toNat_setWidth]
  omega

theorem jmp (imm : BitVec 26) : Statement (.jmp imm) := fun _ => by simp [Instr.record, jmpRecord]

theorem lw (rd rs rb : RegIdx) (imm : BitVec 11) : Statement (.lw rd rs rb imm) :=
  fun _ => ⟨setWidth_lt rd, setWidth_lt rs, setWidth_lt rb⟩

theorem unk3F (low : BitVec 26) : Statement (.unk3F low) := fun _ => by simp [Instr.record, unk3FRecord]

theorem ldhi (ops : Operands) : Statement (.ldhi ops) :=
  fun _ => ⟨setWidth_lt ops.rd, setWidth_lt ops.rs, setWidth_lt ops.rb⟩

theorem lda (rd rs : RegIdx) (imm : BitVec 16) : Statement (.lda rd rs imm) :=
  fun _ => ⟨setWidth_lt rd, setWidth_lt rs, by simp [Instr.record, ldaRecord]⟩

theorem dword (o : Slot) (ops : Operands) : Statement (.dword o ops) :=
  fun _ => ⟨setWidth_lt ops.rd, setWidth_lt ops.rs, setWidth_lt ops.rb⟩

end Sys2Proof.Laws.RecordFields
end

