-- ==== Sys2Proof/Laws/Shadow.lean ====
section
/-! SUPPORT. The laws of the shadow array and of `Update`. -/

namespace Sys2Proof.Machine

@[simp] theorem readX_writeX_same (x : Shadow) (i : RegIdx) (v : Word) : readX (writeX x i v) i = v := by
  simp [readX, writeX]

theorem readX_writeX_other (x : Shadow) {i j : RegIdx} (v : Word) (h : j ≠ i) :
    readX (writeX x i v) j = readX x j := by
  have : i.toNat ≠ j.toNat := fun e => h (BitVec.eq_of_toNat_eq e.symm)
  simp [readX, writeX, this]

/-- A shadow is its registers. -/
theorem shadow_ext {x y : Shadow} (h : ∀ i : RegIdx, readX x i = readX y i) : x = y := by
  apply Vector.ext
  intro i hi
  have := h (BitVec.ofNat 5 i)
  have e : i % 32 = i := Nat.mod_eq_of_lt hi
  simpa [readX, e] using this

/-- What `Update` leaves in a register other than 0. -/
theorem readX_update (c : Config) (x : Shadow) (rec : DecodedInstruction) {i : RegIdx} (h : i ≠ 0#5) :
    readX (update c x rec) i = readX (updateKind c x rec) i :=
  readX_writeX_other _ _ h

/-- A record of no kind writes nothing but the forced zero (R155). -/
theorem update_of_no_kind {c : Config} {x : Shadow} {rec : DecodedInstruction}
    (h₁ : rec.opcodeId ≠ some c.opcLoadHigh) (h₂ : rec.opcodeId ≠ some c.opcLoadAddr) :
    update c x rec = writeX x 0#5 0#32 := by
  simp [update, updateKind, h₁, h₂]

/-- A load-high record (R152). -/
theorem update_of_load_high {c : Config} {x : Shadow} {rec : DecodedInstruction}
    (h : rec.opcodeId = some c.opcLoadHigh) :
    update c x rec =
      writeX (writeX x (regOf rec.rd) (loadHighValue (readX x (regOf rec.rs)) rec.imm)) 0#5 0#32 := by
  simp [update, updateKind, h]

/-- A load-address record, in a configuration whose kinds differ (R153). -/
theorem update_of_load_addr {c : Config} {x : Shadow} {rec : DecodedInstruction}
    (h : rec.opcodeId = some c.opcLoadAddr) (hne : c.opcLoadHigh ≠ c.opcLoadAddr) :
    update c x rec =
      writeX (writeX x (regOf rec.rd) (loadAddrValue (readX x (regOf rec.rs)) (unsignedImm rec))) 0#5 0#32 := by
  simp [update, updateKind, h, Ne.symm hne]

/-- A newly created shadow reads 0 at register 0. -/
@[simp] theorem readX_initialShadow_zero (c : Config) : readX (initialShadow c) 0#5 = 0#32 := by
  simp [readX, initialShadow]

@[simp] theorem regOf_setWidth (r : RegIdx) : regOf (r.setWidth 16) = r := by
  apply BitVec.eq_of_toNat_eq
  have := r.isLt
  simp only [regOf, BitVec.toNat_setWidth]
  omega

@[simp] theorem regOf_zero : regOf 0#16 = 0#5 := rfl

end Sys2Proof.Machine
end

