-- ==== Sys2Proof/Laws/State.lean ====
section
/-! SUPPORT. One lemma per field for each state update, so that no later proof unfolds one. -/

namespace Sys2Proof.Machine

/-! ## Session reset: `created` cleared, nothing else -/

@[simp] theorem sessionReset_x (s : State) : (sessionReset s).x = s.x := rfl
@[simp] theorem sessionReset_created (s : State) : (sessionReset s).created = false := rfl
@[simp] theorem sessionReset_cfg (s : State) : (sessionReset s).cfg = s.cfg := rfl
@[simp] theorem sessionReset_image (s : State) : (sessionReset s).image = s.image := rfl
@[simp] theorem sessionReset_inputs (s : State) : (sessionReset s).inputs = s.inputs := rfl
@[simp] theorem sessionReset_call (s : State) : (sessionReset s).call = s.call := rfl
@[simp] theorem sessionReset_out (s : State) : (sessionReset s).out = s.out := rfl
@[simp] theorem sessionReset_trace (s : State) : (sessionReset s).trace = s.trace := rfl

/-! ## Lazy creation -/

theorem ensureCreated_of_created {s : State} (h : s.created = true) : ensureCreated s = s := by
  simp [ensureCreated, h]

theorem ensureCreated_of_not_created {s : State} (h : s.created = false) :
    ensureCreated s = { s with created := true, x := initialShadow s.cfg } := by
  simp [ensureCreated, h]

@[simp] theorem ensureCreated_created (s : State) : (ensureCreated s).created = true := by
  cases h : s.created <;> simp [ensureCreated, h]
@[simp] theorem ensureCreated_x (s : State) :
    (ensureCreated s).x = if s.created then s.x else initialShadow s.cfg := by
  cases h : s.created <;> simp [ensureCreated, h]
@[simp] theorem ensureCreated_cfg (s : State) : (ensureCreated s).cfg = s.cfg := by
  cases h : s.created <;> simp [ensureCreated, h]
@[simp] theorem ensureCreated_image (s : State) : (ensureCreated s).image = s.image := by
  cases h : s.created <;> simp [ensureCreated, h]
@[simp] theorem ensureCreated_inputs (s : State) : (ensureCreated s).inputs = s.inputs := by
  cases h : s.created <;> simp [ensureCreated, h]
@[simp] theorem ensureCreated_call (s : State) : (ensureCreated s).call = s.call := by
  cases h : s.created <;> simp [ensureCreated, h]
@[simp] theorem ensureCreated_out (s : State) : (ensureCreated s).out = s.out := by
  cases h : s.created <;> simp [ensureCreated, h]
@[simp] theorem ensureCreated_trace (s : State) : (ensureCreated s).trace = s.trace := by
  cases h : s.created <;> simp [ensureCreated, h]

/-! ## The start of a Step -/

@[simp] theorem beginCall_x (c : Call) (rest : List Input) (s : State) :
    (beginCall c rest s).x = if s.created then s.x else initialShadow s.cfg := by simp [beginCall]
@[simp] theorem beginCall_created (c : Call) (rest : List Input) (s : State) :
    (beginCall c rest s).created = true := by simp [beginCall]
@[simp] theorem beginCall_cfg (c : Call) (rest : List Input) (s : State) : (beginCall c rest s).cfg = s.cfg := by
  simp [beginCall]
@[simp] theorem beginCall_image (c : Call) (rest : List Input) (s : State) : (beginCall c rest s).image = s.image := by
  simp [beginCall]
@[simp] theorem beginCall_inputs (c : Call) (rest : List Input) (s : State) : (beginCall c rest s).inputs = rest := by
  simp [beginCall]
@[simp] theorem beginCall_call (c : Call) (rest : List Input) (s : State) : (beginCall c rest s).call = c := by
  simp [beginCall]
@[simp] theorem beginCall_out (c : Call) (rest : List Input) (s : State) : (beginCall c rest s).out = s.out := by
  simp [beginCall]
@[simp] theorem beginCall_trace (c : Call) (rest : List Input) (s : State) :
    (beginCall c rest s).trace = [.readMemory c.addr 4] := by simp [beginCall]

/-! ## The fetch of a placed word -/

@[simp] theorem withFetchWord_x (s : State) (n w : Nat) : (s.withFetchWord n w).x = s.x := rfl
@[simp] theorem withFetchWord_created (s : State) (n w : Nat) : (s.withFetchWord n w).created = s.created := rfl
@[simp] theorem withFetchWord_cfg (s : State) (n w : Nat) : (s.withFetchWord n w).cfg = s.cfg := rfl
@[simp] theorem withFetchWord_call (s : State) (n w : Nat) : (s.withFetchWord n w).call = s.call := rfl
@[simp] theorem withFetchWord_out (s : State) (n w : Nat) : (s.withFetchWord n w).out = s.out := rfl
@[simp] theorem withFetchWord_trace (s : State) (n w : Nat) : (s.withFetchWord n w).trace = s.trace := rfl

end Sys2Proof.Machine
end

