-- ==== Sys2Proof/Laws/Retire.lean ====
section
/-! SUPPORT. What the end of a Step can do, once: the inversion lemmas of `retire`, `takeMemReadFail`, `runCall` and `step`. -/

namespace Sys2Proof.Machine

/-- Every meaning is the end of a Step with the instruction's record. -/
theorem exec_eq_retire (i : Instr) (s : State) : exec i s = retire (i.record s.cfg) s := by
  cases i <;> rfl

/-- Everything `retire` can answer as a next state. -/
theorem retire_next {rec : DecodedInstruction} {s t : State} (h : retire rec s = .next t) :
    ∃ text calls, format s.cfg rec s.call.addr (update s.cfg s.x rec) s.call.symbols = .ok (text, calls) ∧
      t = { s with x := update s.cfg s.x rec, out := .completed rec text 4, trace := s.trace ++ calls } := by
  unfold retire at h
  split at h
  · rename_i text calls hf
    cases h
    exact ⟨text, calls, hf, rfl⟩
  · cases h

/-- When the line is there, `retire` completes. -/
theorem retire_completes {rec : DecodedInstruction} {s : State} {text : String} {calls : List HostCall}
    (h : format s.cfg rec s.call.addr (update s.cfg s.x rec) s.call.symbols = .ok (text, calls)) :
    retire rec s =
      .next { s with x := update s.cfg s.x rec, out := .completed rec text 4, trace := s.trace ++ calls } := by
  simp [retire, h]

/-- The one way `retire` can fail to end: a symbol callback that never returns. -/
theorem retire_stuck {rec : DecodedInstruction} {s : State} {f : Fault} (h : retire rec s = .fault f) :
    ∃ cb, format s.cfg rec s.call.addr (update s.cfg s.x rec) s.call.symbols = .error cb ∧
      f = .callbackNeverReturns cb := by
  unfold retire at h
  split at h
  · cases h
  · rename_i cb hf
    cases h
    exact ⟨cb, hf, rfl⟩

theorem retire_not_refused (rec : DecodedInstruction) (s : State) (r : Refusal) : retire rec s ≠ .refused r := by
  unfold retire
  split <;> simp

/-- Everything taking the fault can answer as a next state. -/
theorem takeMemReadFail_next {status : Int} {s t : State} (h : takeMemReadFail status s = .next t) :
    s.call.reportReturns = true ∧
      t = { s with
        out := .memReadFail status s.call.addr
        trace := s.trace ++ [.reportMemoryError status s.call.addr] } := by
  unfold takeMemReadFail at h
  split at h
  · rename_i hr
    cases h
    exact ⟨hr, rfl⟩
  · cases h

/-- What the fetch gives, by the host's status. -/
theorem memRead_cases (s : State) :
    (s.call.status = none ∧ memRead s = .never) ∨
    (∃ status, s.call.status = some status ∧ status ≠ 0 ∧ memRead s = .failed status) ∨
    (s.call.status = some 0 ∧
      memRead s = .bytes (Vector.ofFn fun i => fetchByte s.image s.call i)) := by
  unfold memRead
  cases h : s.call.status with
  | none => exact .inl ⟨rfl, rfl⟩
  | some status =>
    by_cases h0 : status = 0
    · subst h0
      exact .inr (.inr ⟨rfl, by simp⟩)
    · exact .inr (.inl ⟨status, rfl, h0, by simp [h0]⟩)

/-- Everything a Step whose call has begun can answer as a next state: the fault is taken, or the fetched word's record retires. -/
theorem runCall_next {s t : State} (h : runCall s = .next t) :
    (∃ status, s.call.status = some status ∧ status ≠ 0 ∧ takeMemReadFail status s = .next t) ∨
    (s.call.status = some 0 ∧
      retire ((decode s.cfg (wordOfBytes (Vector.ofFn fun i => fetchByte s.image s.call i))).record s.cfg) s = .next t) := by
  unfold runCall at h
  rcases memRead_cases s with ⟨_, hm⟩ | ⟨status, hs, h0, hm⟩ | ⟨hs, hm⟩ <;> simp only [hm] at h
  · cases h
  · exact .inl ⟨status, hs, h0, h⟩
  · exact .inr ⟨hs, by rw [exec_eq_retire] at h; exact h⟩

/-- Everything a step can do: the block waits, the host resets it, the host changes its image, or a Step runs. -/
theorem step_next {s t : State} (h : step s = .next t) :
    (s.inputs = [] ∧ t = s) ∨
    (∃ rest, s.inputs = .reset :: rest ∧ t = sessionReset { s with inputs := rest }) ∨
    (∃ a b rest, s.inputs = .imageWrite a b :: rest ∧
      t = { s with inputs := rest, image := Memory.write s.image a.toNat b }) ∨
    (∃ c rest, s.inputs = .call c :: rest ∧ runCall (beginCall c rest s) = .next t) := by
  unfold step at h
  split at h
  · cases h; exact .inl ⟨‹_›, rfl⟩
  · cases h; exact .inr (.inl ⟨_, ‹_›, rfl⟩)
  · cases h; exact .inr (.inr (.inl ⟨_, _, _, ‹_›, rfl⟩))
  · exact .inr (.inr (.inr ⟨_, _, ‹_›, h⟩))

theorem step_of_call {s : State} {c : Call} {rest : List Input} (h : s.inputs = .call c :: rest) :
    step s = runCall (beginCall c rest s) := by
  simp [step, h]

end Sys2Proof.Machine
end

