-- ==== Sys2Proof/Tests/Slice0.lean ====
section
/-! SUPPORT. Tests of the model's own: expected results from spec/95_test_vectors.md (V1 to V6, S1 to S8, P1 to P4) or worked by
hand from the rule cited; the smoke tests of WellFormed; and for each statement of Obligations.lean a witness of its
hypotheses. -/

namespace Sys2Proof.Tests

open Sys2Proof.Machine

/-! ## Helpers -/

/-- A call at `addr` whose read succeeds and delivers `word`, with these symbols. -/
def callOf (addr : Addr) (word : Word) (symbols : List (Addr × SymbolReply)) : Call where
  addr := addr
  status := some 0
  fill := bytesOfWord word
  symbols := symbols
  reportReturns := true

/-- A running session under `c` whose shadow is 0 but for these registers, with one call pending. -/
def block (c : Config) (regs : List (RegIdx × Word)) (call : Call) : State :=
  { State.reset with
    cfg := c
    created := true
    x := regs.foldl (fun x r => writeX x r.1 r.2) (Vector.replicate 32 0#32)
    inputs := [.call call] }

/-- The text of the last completed Step. -/
def textOf : Host.Outcome State Fault Refusal → Option String
  | .next s => match s.out with
    | .completed _ t _ => some t
    | _ => none
  | _ => none

/-- A register after the step. -/
def regAfter (i : RegIdx) : Host.Outcome State Fault Refusal → Option Word
  | .next s => some (readX s.x i)
  | _ => none

/-- The record of the last completed Step. -/
def recordOf : Host.Outcome State Fault Refusal → Option DecodedInstruction
  | .next s => match s.out with
    | .completed r _ _ => some r
    | _ => none
  | _ => none

/-- The step answers a next state. -/
def goesOn : Host.Outcome State Fault Refusal → Bool
  | .next _ => true
  | _ => false

/-- The step is the named stop. -/
def stopsAt (cb : HostCall) : Host.Outcome State Fault Refusal → Bool
  | .fault (.callbackNeverReturns cb') => decide (cb' = cb)
  | _ => false

/-- An open table that uses all four classes at slots the source does not name (R109). -/
def cfgOpen : Config :=
  { refcfg with
    other := (((refcfg.other.set 1 (.named "add" .register)).set 2 (.named "addi" .immediate)).set 3 (.named "bf" .jump)).set 4
      (.named "rsvd" .invalid)
    classLoadHigh := .register
    slot3fNamed := false }

/-- Load-high of class Jump (R107). -/
def cfgJumpHigh : Config := { refcfg with classLoadHigh := .jump }

/-! ## Decoding is right: words written out bit by bit from the encodings -/

-- R123: 000000 and 26 bits of displacement.
theorem test_decode_jmp : decode refcfg 0b000000_11111111111111111111111110#32 = .jmp (-2) := by decide
-- R124, V4: 100001 ddddd sssss bbbbb iiiiiiiiiii.
theorem test_decode_lw : decode refcfg 0b100001_00010_00011_10100_00000000101#32 = .lw 2 3 20 5 := by decide
-- R125: 111111 and the rest of the word.
theorem test_decode_unk3F : decode refcfg 0b111111_00000000001011111011101111#32 = .unk3F 0xBEEF := by decide
-- R106: the same word is the sentinel's when the slot is not named.
theorem test_decode_3F_unnamed : decode cfgOpen 0b111111_00000000001011111011101111#32 = .dword 0x3F (.raw 0xBEEF) := by decide
-- R126 in REFCFG: 000110 ddddd sssss iiiiiiiiiiiiiiii.
theorem test_decode_ldhi : decode refcfg 0b000110_00101_00100_1111111111111111#32 = .ldhi (.immediate 5 4 0xFFFF) := by decide
-- R107: with class Register the same slot has the Register layout.
theorem test_decode_ldhi_register : decode cfgOpen 0b000110_00101_00100_11111_00000000001#32 = .ldhi (.register 5 4 31 1) := by decide
-- R127 in REFCFG: 101011 ddddd sssss iiiiiiiiiiiiiiii.
theorem test_decode_lda : decode refcfg 0b101011_00001_00010_1000000000000001#32 = .lda 1 2 0x8001 := by decide
-- R128 in REFCFG: slot 4 is the sentinel.
theorem test_decode_dword : decode refcfg 0x12345678#32 = .dword 4 (.raw 0x2345678) := by decide
-- R78: encoding, V5's `lw $1, $2, $3, 0x4`.
theorem test_encode_lw : encode refcfg (.lw 1 2 3 4) = 0x84221804#32 := by decide
-- R78, P1: `_ldhi $3, $0, -0x7fff`.
theorem test_encode_ldhi : encode refcfg (.ldhi (.immediate 3 0 0x8001)) = 0x18608001#32 := by decide
-- V1: big-endian, 01 00 00 00 is opcode 0 with displacement 0x1000000.
theorem test_decode_bytes : decodeBytes refcfg [1, 0, 0, 0, 9] = .ok (.jmp 0x1000000, [9]) := by rfl
-- R60: three bytes are no instruction.
theorem test_decode_truncated : decodeBytes refcfg [0x84, 0, 0] = .error .truncated := by rfl
theorem test_table_word : decodeTableWord 32 0x84000010 = some (.lw 0 0 0 16) := by decide
-- V2.
theorem test_extract : extract 0x8443A005#32 specRb = 20#32 ∧ extract 0xFFFFFFFF#32 specOpcode = 63#32 := by decide
-- V3.
theorem test_sign_extend :
    (signExtend 0x400#32 specImm11).toInt = -1024 ∧ signExtend 0x1FFFFFF#32 specImm26 = 0x01FFFFFF#32 ∧
    (signExtend 0x80000000#32 specWord).toInt = -2147483648 := by decide

/-! ## One step each -/

-- S1, V4: text at 0x1000 with no symbol.
theorem test_jmp_text : textOf (step (block refcfg [] (callOf 0x1000 0x03FFFFFF []))) =
    some "jmp $pc+(ffffffff*4)\t// ffc" := by decide
-- P2: a symbol at the target.
theorem test_jmp_symbol : textOf (step (block refcfg [] (callOf 0x2004 0x03FFFFFF [(0x2000, .printed "<loop>")]))) =
    some "jmp $pc+(ffffffff*4)\t// <loop>" := by decide
-- V4.
theorem test_lw_text : textOf (step (block refcfg [] (callOf 0x1000 0x84000400 []))) = some "lw $0, $0, $0, -0x400" := by decide
-- V5, no kind.
theorem test_lw_writes_nothing : regAfter 1 (step (block refcfg [(1, 7), (2, 9)] (callOf 0 0x84221804 []))) = some 7 := by decide
-- V4, and S4 for the sentinel.
theorem test_unk3F_text : textOf (step (block refcfg [] (callOf 0x1000 0xFC00BEEF []))) = some "unk3F 0xFC00BEEF" := by decide
theorem test_3F_sentinel_text : textOf (step (block cfgOpen [] (callOf 0x1000 0xFC000000 []))) = some ".dword 0xFC000000" := by
  decide
-- V5: only the low 16 bits of the sum survive.
theorem test_ldhi_value : regAfter 1 (step (block refcfg [(2, 0x12348000)] (callOf 0 0x18227FFF []))) = some 0xFFFF0000 := by decide
-- V5, P3: rd = 0 is forced back to 0.
theorem test_ldhi_register_zero : regAfter 0 (step (block refcfg [(7, 0xDEADBEEF)] (callOf 0x108 0x18070001 []))) = some 0 := by
  decide
-- P3: the comment reads x[rd] after the update.
theorem test_lda_text : textOf (step (block refcfg [(7, 0xDEADBEEF)] (callOf 0x104 0xACC7FFFF []))) =
    some "_lda $6, $7, -0x1\t// dead4110" := by decide
-- V5: xor, not or, with rd = rs.
theorem test_lda_value : regAfter 1 (step (block refcfg [(1, 0xFF)] (callOf 0 0xAC2100FF []))) = some 0 := by decide
-- V4.
theorem test_dword_text : textOf (step (block refcfg [] (callOf 0x1000 0x04000000 []))) = some ".dword 0x4000000" := by decide
-- R128, R172 by hand: an unnamed slot of class Register.
theorem test_open_slot_text : textOf (step (block cfgOpen [] (callOf 0 0x04221FFF []))) = some "add $1, $2, $3, -0x1" := by decide

/-! ## Faults, sessions, the host -/

/-- V6: the host's read at 0x2000 returns 5. -/
def failing : State :=
  block refcfg [(5, 0xAAAA0000)] { callOf 0x2000 0 [] with status := some 5 }

-- V6: one report, no record, x[5] kept.
theorem test_failed_read : step failing = .next { failing with
    inputs := []
    call := { callOf 0x2000 0 [] with status := some 5 }
    out := .memReadFail 5 0x2000
    trace := [.readMemory 0x2000 4, .reportMemoryError 5 0x2000] } := by rfl
-- R25: the first Step fills x from SHADOW_RESET (here 3 everywhere), whatever it held.
theorem test_first_step : regAfter 9 (step { block { refcfg with shadowReset := Vector.replicate 31 3 } [(9, 1)]
    (callOf 0 0x84000000 []) with created := false }) = some 3 := by decide
-- R196: a read, and a symbol lookup, that never return.
theorem test_read_hangs : stopsAt (.readMemory 0 4) (step (block refcfg [] { callOf 0 0 [] with status := none })) = true := by decide
theorem test_symbol_hangs :
    stopsAt (.printSymbolAt 0) (step (block refcfg [] (callOf 0 0 [(0, .printNeverReturns)]))) = true := by decide
-- R43, U13: at the top of the address space the bytes past 2^64 are the host's own.
theorem test_fetch_past_top : recordOf (step { block refcfg [] (callOf 0xFFFFFFFFFFFFFFFE 0x84000010 []) with
    image := [(0, 0xFF), (0xFFFFFFFFFFFFFFFE, 0xFC)] }) =
    some (unk3FRecord refcfg 0x10) := by decide
theorem test_placed_word_runs : textOf (step (State.reset.withFetchWord 32 0x8443A005)) = some "lw $2, $3, $20, 0x5" := by decide

/-! ## WellFormed refuses each ill-formed term -/

theorem test_wf_refcfg : refcfg.wf = true ∧ cfgOpen.wf = true ∧ cfgJumpHigh.wf = true := by decide
theorem test_wf_load_high_slot : Config.wf { refcfg with opcLoadHigh := 0x00 } = false ∧
    Config.wf { refcfg with opcLoadHigh := 0x21 } = false ∧ Config.wf { refcfg with opcLoadHigh := 0x3F } = false := by decide
theorem test_wf_load_addr_slot : Config.wf { refcfg with opcLoadAddr := 0x00 } = false ∧
    Config.wf { refcfg with opcLoadAddr := 0x21 } = false ∧ Config.wf { refcfg with opcLoadAddr := 0x3F } = false := by decide
theorem test_wf_kinds_equal : Config.wf { refcfg with opcLoadAddr := 0x06 } = false := by decide
theorem test_wf_mnemonics : Config.wf { refcfg with mnemLoadHigh := "" } = false ∧
    Config.wf { refcfg with mnemLoadAddr := "loadadr" } = false := by decide
theorem test_wf_class : Config.wf { refcfg with classLoadHigh := .invalid } = false := by decide
theorem test_wf_other : Config.wf { refcfg with other := refcfg.other.set 9 (.named "toolong" .jump) } = false := by decide
theorem test_wf_unk3F : Instr.wf cfgOpen (.unk3F 0) = false := by decide
theorem test_wf_ldhi_form : Instr.wf refcfg (.ldhi (.jump 0)) = false ∧ Instr.wf refcfg (.ldhi (.raw 0)) = false := by decide
theorem test_wf_dword_slot : Instr.wf refcfg (.dword 0 (.jump 0)) = false ∧ Instr.wf refcfg (.dword 0x21 (.register 0 0 0 0)) = false ∧
    Instr.wf refcfg (.dword 0x3F (.raw 0)) = false ∧ Instr.wf refcfg (.dword 0x06 (.immediate 0 0 0)) = false ∧
    Instr.wf refcfg (.dword 0x2B (.immediate 0 0 0)) = false := by decide
theorem test_wf_dword_form : Instr.wf refcfg (.dword 4 (.register 0 0 0 0)) = false ∧ Instr.wf cfgOpen (.dword 1 (.immediate 0 0 0)) = false ∧
    Instr.wf cfgOpen (.dword 3 (.raw 0)) = false := by decide
theorem test_image_form : Memory.wf [(2, 0), (1, 0)] = false ∧ Memory.wf [(1, 0), (1, 0)] = false ∧
    Memory.wf [(2 ^ 64, 0)] = false ∧ Memory.wf (Memory.write [(1, 0), (7, 0)] 5 3) = true := by decide

/-! ## Witnesses: the hypotheses of each statement, met together -/

theorem witness_SignExtensionRoundTrip :
    (0 < 11 ∧ 11 ≤ 32 ∧ specImm11.signBitMask = 1#32 <<< (11 - 1) ∧ specImm11.signExtendPattern = 0xFFFFFFFF#32 <<< 11 ∧
      (specImm11.mask >>> specImm11.shift).toNat = 2 ^ 11 - 1 ∧ (0x400#32).toNat < 2 ^ 11 ∧ (0x3FF#32).toNat < 2 ^ (11 - 1)) ∧
    (0 < 32 ∧ (⟨0xFFFFFFFF#32, 0#32, 0x80000000#32, 0#32⟩ : ArgumentSpec).signBitMask = 1#32 <<< (32 - 1)) := by decide
theorem witness_ImmediateOfEachClass : (decodeRecord refcfg 0x84000400#32).cls = .register ∧
    (decodeRecord refcfg 0x1800FFFF#32).cls = .immediate ∧ (decodeRecord refcfg 0x02000000#32).cls = .jump ∧
    (decodeRecord refcfg 0xFFFFFFFF#32).cls = .invalid := by decide
theorem witness_EveryWordDecodes : refcfg.wf = true ∧ 4 ≤ ([1, 2, 3, 4] : List Byte).length ∧ ([1, 2, 3] : List Byte).length < 4 := by
  decide
theorem witness_DecodeOfEncodeIsIdentity : cfgOpen.wf = true ∧ (Instr.jmp 0x3FFFFFF).wf cfgOpen = true ∧
    (Instr.lw 31 31 31 0x7FF).wf cfgOpen = true ∧ (Instr.unk3F 0).wf refcfg = true ∧
    (Instr.ldhi (.register 31 0 31 0)).wf cfgOpen = true ∧ (Instr.lda 31 31 0xFFFF).wf cfgOpen = true ∧
    (Instr.dword 0x3F (.raw 1)).wf cfgOpen = true ∧ (Instr.dword 3 (.jump 1)).wf cfgOpen = true := by decide
theorem witness_DifferentWordsDifferentRecords : decodeRecord refcfg 5#32 = decodeRecord refcfg 5#32 := rfl
theorem witness_OpcodeTableWellFormed : refcfg.wf = true ∧ refcfg.slot3fNamed = true ∧ cfgOpen.wf = true ∧ cfgOpen.slot3fNamed = false ∧
    (cfgOpen.optable 1#6).opcodeId = some 1#6 ∧ cfgOpen.optable 5#6 = sentinel := by decide
theorem witness_LookupOutOfRangeIsSentinel : 64 ≤ (64#8).toNat ∧ 64 ≤ (255#8).toNat := by decide
theorem witness_LoadHighUpdate :
    (ldhiRecord refcfg (.immediate 1 2 0xFFFF)).opcodeId = some refcfg.opcLoadHigh ∧
    regOf (ldhiRecord refcfg (.immediate 1 2 0xFFFF)).rd ≠ 0#5 ∧ regOf (ldhiRecord refcfg (.immediate 0 2 0xFFFF)).rd = 0#5 := by decide
theorem witness_LoadAddressUpdate : refcfg.wf = true ∧
    (ldaRecord refcfg 1 2 0x8000).opcodeId = some refcfg.opcLoadAddr ∧
    (ldaRecord refcfg 1 2 0x8000).desc = refcfg.optable refcfg.opcLoadAddr ∧ regOf (ldaRecord refcfg 1 2 0x8000).rd ≠ 0#5 := by decide
theorem witness_OtherRecordsLeaveShadow : opcodeOf 0x84221804#32 ≠ refcfg.opcLoadHigh ∧ opcodeOf 0x84221804#32 ≠ refcfg.opcLoadAddr := by
  decide

/-- A running session with nothing pending, no symbol, under `c`. -/
def idleBlock (c : Config) : State := { block c [] Call.initial with inputs := [] }

/-- The same, with a symbol at the address every test of a comment asks about. -/
def symbolBlock (c : Config) : State :=
  { idleBlock c with call := { Call.initial with symbols := [(4#64, .printed "<s>")] } }

theorem witness_RegisterZeroAfterEveryInstruction : goesOn (exec (.jmp 1) (idleBlock refcfg)) = true := by decide
theorem witness_JmpCompletes : (idleBlock refcfg).cfg.wf = true ∧
    symbolReply (idleBlock refcfg).call.symbols ((1#26).signExtend 64 * 4#64 + (idleBlock refcfg).call.addr) = .absent ∧
    symbolReply (symbolBlock refcfg).call.symbols ((1#26).signExtend 64 * 4#64 + (symbolBlock refcfg).call.addr) = .printed "<s>" := by
  decide
theorem witness_LwCompletes : (idleBlock refcfg).cfg.wf = true := by decide
theorem witness_Unk3FCompletes : (idleBlock refcfg).cfg.wf = true ∧ (idleBlock refcfg).cfg.slot3fNamed = true := by decide
theorem witness_LdhiImmediateCompletes : (idleBlock refcfg).cfg.wf = true ∧ (idleBlock refcfg).cfg.classLoadHigh = .immediate := by
  decide
theorem witness_LdhiRegisterCompletes : (idleBlock cfgOpen).cfg.wf = true ∧ (idleBlock cfgOpen).cfg.classLoadHigh = .register := by
  decide
theorem witness_LdhiJumpCompletes : (idleBlock cfgJumpHigh).cfg.wf = true ∧ (idleBlock cfgJumpHigh).cfg.classLoadHigh = .jump ∧
    symbolReply (idleBlock cfgJumpHigh).call.symbols ((1#26).signExtend 64 * 4#64 + 0#64) = .absent ∧
    symbolReply (symbolBlock cfgJumpHigh).call.symbols ((1#26).signExtend 64 * 4#64 + 0#64) = .printed "<s>" := by decide
theorem witness_LdaCompletes : (idleBlock refcfg).cfg.wf = true ∧ symbolReply (idleBlock refcfg).call.symbols 0#64 = .absent ∧
    symbolReply (symbolBlock refcfg).call.symbols ((readX (symbolBlock refcfg).x 2 ^^^ (4#16).setWidth 32).setWidth 64) =
      .printed "<s>" := by decide
theorem witness_DwordInvalidCompletes : (idleBlock cfgOpen).cfg.wf = true ∧ (Instr.dword 5 (.raw 1)).wf cfgOpen = true ∧
    cfgOpen.optable 5#6 = sentinel ∧ (Instr.dword 4 (.raw 1)).wf cfgOpen = true ∧ cfgOpen.optable 4#6 ≠ sentinel := by decide
theorem witness_DwordRegisterAndImmediateComplete : (idleBlock cfgOpen).cfg.wf = true ∧
    (Instr.dword 1 (.register 1 2 3 4)).wf (idleBlock cfgOpen).cfg = true ∧
    (Instr.dword 2 (.immediate 1 2 3)).wf (idleBlock cfgOpen).cfg = true := by decide
theorem witness_DwordJumpCompletes : (idleBlock cfgOpen).cfg.wf = true ∧ (Instr.dword 3 (.jump 1)).wf (idleBlock cfgOpen).cfg = true ∧
    symbolReply (idleBlock cfgOpen).call.symbols ((1#26).signExtend 64 * 4#64 + 0#64) = .absent ∧
    symbolReply (symbolBlock cfgOpen).call.symbols ((1#26).signExtend 64 * 4#64 + 0#64) = .printed "<s>" := by decide
theorem witness_FrameOfInstructionsOfNoKind : (idleBlock cfgOpen).cfg.wf = true ∧ (Instr.dword 1 (.register 1 2 3 4)).wf cfgOpen = true ∧
    goesOn (exec (.dword 1 (.register 1 2 3 4)) (idleBlock cfgOpen)) = true ∧ goesOn (exec (.lw 1 2 3 4) (idleBlock cfgOpen)) = true ∧
    goesOn (exec (.jmp 1) (idleBlock cfgOpen)) = true ∧ goesOn (exec (.unk3F 1) (idleBlock refcfg)) = true := by decide
theorem witness_FrameOfShadowKinds : goesOn (exec (.ldhi (.immediate 1 2 3)) (idleBlock refcfg)) = true ∧
    goesOn (exec (.lda 1 2 3) (idleBlock refcfg)) = true := by decide

/-- The state after a completed instruction. -/
def after (i : Instr) (s : State) : State :=
  match exec i s with
  | .next t => t
  | _ => s

theorem witness_AddressFormingPair : (idleBlock refcfg).cfg.wf = true ∧ readX (idleBlock refcfg).x 0#5 = 0#32 ∧
    goesOn (exec (.ldhi (.immediate 3 0#5 0x8001)) (idleBlock refcfg)) = true ∧
    goesOn (exec (.lda 3 3 0x2340) (after (.ldhi (.immediate 3 0#5 0x8001)) (idleBlock refcfg))) = true := by decide
theorem witness_RepeatedInstruction : (idleBlock refcfg).cfg.wf = true ∧ readX (idleBlock refcfg).x 0#5 = 0#32 ∧
    (Operands.immediate 3 2 1).rd ≠ (Operands.immediate 3 2 1).rs ∧
    goesOn (exec (.ldhi (.immediate 3 2 1)) (after (.ldhi (.immediate 3 2 1)) (idleBlock refcfg))) = true ∧
    goesOn (exec (.lda 3 2 1) (after (.lda 3 2 1) (idleBlock refcfg))) = true := by decide
theorem witness_HexadecimalReadsBack : 0 < 2 ^ 64 ∧ 2 ^ 64 - 1 < 2 ^ 64 ∧ 2 ^ 64 - 1 ≠ 0 := by decide
theorem witness_RawWordReadsBack : 4 < (hexUpper4 0x10000).length ∧ (hexUpper4 0xF).length = 4 := by decide
theorem witness_NegativeDisplacementHasEightDigits : (0x2000000#26).toInt < 0 ∧ (0x3FFFFFF#26).toInt < 0 := by decide

/-- A block with one completing call pending. -/
def running : State := block refcfg [] (callOf 0x1000 0x84000010 [])

theorem witness_StepRunsTheDecodedInstruction : running.inputs = .call (callOf 0x1000 0x84000010 []) :: [] ∧
    (callOf 0x1000 0x84000010 []).status = some 0 ∧
    decode running.cfg (wordOfBytes (Vector.ofFn fun k => fetchByte running.image (callOf 0x1000 0x84000010 []) k)) =
      .lw 0 0 0 16 := by decide
theorem witness_StepRefinesPseudocode : running.inputs = .call (callOf 0x1000 0x84000010 []) :: [] := by decide
theorem witness_FirstStepCreatesShadow : ({ running with created := false } : State).created = false ∧
    ({ running with created := false } : State).inputs = .call (callOf 0x1000 0x84000010 []) :: [] ∧
    goesOn (step { running with created := false }) = true := by decide
theorem witness_ResetClearsCreatedOnly : ({ running with inputs := [.reset] } : State).inputs = .reset :: [] := by decide
theorem witness_FailedReadIsTaken : failing.inputs = .call { callOf 0x2000 0 [] with status := some 5 } :: [] ∧
    (5 : Int) ≠ 0 ∧ (callOf 0x2000 0 []).reportReturns = true := by decide
theorem witness_ReadyAfterFault :
    ({ failing with inputs := failing.inputs ++ running.inputs } : State).inputs =
      .call { callOf 0x2000 0 [] with status := some 5 } :: .call (callOf 0x1000 0x84000010 []) :: [] ∧
    goesOn (step { failing with inputs := failing.inputs ++ running.inputs }) = true := by decide
theorem witness_ZeroStatusAlwaysCompletes : (callOf 0x1000 0x84000010 []).returns = true ∧
    (callOf 0x1000 0x84000010 []).status = some 0 ∧ ({ callOf 0x2000 0 [] with status := some 5 } : Call).returns = true := by decide
theorem witness_StepEndsIffCallbacksReturn : goesOn (step running) = true ∧ goesOn (step failing) = true ∧
    goesOn (step (block refcfg [] (callOf 0 0 [(0, .printNeverReturns)]))) = false := by decide
theorem witness_NoStepIsRefused :
    stopsAt (.symbolExistsAt 0) (step (block refcfg [] (callOf 0 0 [(0, .existsNeverReturns)]))) = true := by decide
theorem witness_OneFourByteReadPerStep : running.inputs ≠ [] ∧ goesOn (step running) = true := by decide
theorem witness_BlockNeverWritesMemory : running.inputs ≠ [] ∧ goesOn (step running) = true := by decide
theorem witness_SymbolCallbacksOfAStep : (callOf 0x1000 0x84000010 []).status = some 0 ∧ goesOn (step running) = true ∧
    askedAddress refcfg (jmpRecord refcfg 1) 0x1000 running.x = some 0x1004 ∧
    askedAddress refcfg (ldaRecord refcfg 1 1 1) 0x1000 running.x = some 0 ∧
    askedAddress refcfg (lwRecord refcfg 1 1 1 1) 0x1000 running.x = none := by decide
theorem witness_FetchSeesTheHostsChange :
    ({ running with inputs := .imageWrite 0x1001 0x22 :: running.inputs } : State).inputs =
      .imageWrite 0x1001 0x22 :: .call (callOf 0x1000 0x84000010 []) :: [] ∧
    goesOn (step { running with inputs := .imageWrite 0x1001 0x22 :: running.inputs }) = true := by decide
theorem witness_RecordDoesNotDependOnShadow :
    (∀ k : Fin 4, fetchByte running.image (callOf 0x1000 0x84000010 []) k = fetchByte running.image (callOf 0x1001 0x84000010 []) k) ∧
    goesOn (step running) = true ∧ goesOn (step (block refcfg [(1, 7)] (callOf 0x1001 0x84000010 []))) = true := by decide
theorem witness_AlignmentDoesNotMatter :
    (∀ k : Fin 4, fetchByte running.image (callOf 0x1000 0x84000010 []) k = fetchByte running.image (callOf 0x1001 0x84000010 []) k) ∧
    (callOf 0x1000 0x84000010 []).status = (callOf 0x1001 0x84000010 []).status ∧
    goesOn (step running) = true ∧ goesOn (step (block refcfg [] (callOf 0x1001 0x84000010 []))) = true := by decide

/-- A load-high of register 1, then a load-address of register 1. -/
def kindRunning (w : Word) : State := block refcfg [] (callOf 0 w [])

theorem witness_OnlyTheTwoKindsChangeTheShadow : (kindRunning 0x18200001#32).cfg.wf = true ∧
    (kindRunning 0x18200001#32).created = true ∧
    regAfter 1 (step (kindRunning 0x18200001#32)) = some 0x10000 ∧ readX (kindRunning 0x18200001#32).x 1 = 0 ∧
    regAfter 1 (step (kindRunning 0xAC200001#32)) = some 1 := by decide
theorem witness_OpcodeTableNeverChanges : goesOn (step running) = true := by decide
theorem witness_HostActionsLeaveTheBlockAlone : (idleBlock refcfg).inputs = [] ∧
    ({ running with inputs := [.imageWrite 5 6] } : State).inputs = .imageWrite 5 6 :: [] := by decide
theorem witness_PlacedWordRuns : Memory.wf running.image = true := by decide
theorem witness_StepKeepsInvariant : running.Inv ∧ goesOn (step running) = true :=
  ⟨⟨rfl, refcfg_wf, by decide, trivial⟩, by decide⟩
theorem witness_NoRunStops : running.hostReturns = true := by decide

end Sys2Proof.Tests
end

/-! # When a Step ends

The scope statements of spec/00_scope.md: a Step can end only in a next state or in a callback that never returns (R14, R196),
so a block whose host answers runs on for ever. -/

namespace Sys2Proof.Machine

/-! ## The host's answers and the line of text -/

theorem Call.returns_iff (c : Call) :
    c.returns = true ↔
      c.status.isSome = true ∧ c.reportReturns = true ∧ c.symbols.all (fun e => e.2.returns) = true := by
  simp only [Call.returns, Bool.and_eq_true, and_assoc]

theorem withComment_ok_of_returns {symbols : List (Addr × SymbolReply)} {a : Addr} (before : String)
    (h : (symbolReply symbols a).returns = true) : ∃ line, withComment before symbols a = .ok line := by
  rcases withComment_cases before symbols a with ⟨_, hw⟩ | ⟨_, _, hw⟩ | ⟨hr, _⟩ | ⟨hr, _⟩
  · exact ⟨_, hw⟩
  · exact ⟨_, hw⟩
  · simp [hr, SymbolReply.returns] at h
  · simp [hr, SymbolReply.returns] at h

/-- The line of any record is there once the host answers about the address it asks about, if any (R178, R196). -/
theorem format_ok_of_asked_returns {c : Config} {rec : DecodedInstruction} {addr : Addr} {x : Shadow}
    {symbols : List (Addr × SymbolReply)}
    (h : ∀ a, askedAddress c rec addr x = some a → (symbolReply symbols a).returns = true) :
    ∃ line, format c rec addr x symbols = .ok line := by
  cases ha : askedAddress c rec addr x with
  | none =>
    obtain ⟨text, hf⟩ := format_of_not_asked symbols ha
    exact ⟨_, hf⟩
  | some a =>
    obtain ⟨before, hf⟩ := format_of_asked symbols ha
    rw [hf]
    exact withComment_ok_of_returns before (h a ha)

/-! ## The Step under way -/

/-- What a Step whose call has begun is, by the host's status: the hang, the fault, or the fetched word's record retiring. -/
theorem runCall_cases (s : State) :
    (s.call.status = none ∧ runCall s = .fault (.callbackNeverReturns (.readMemory s.call.addr 4))) ∨
    (∃ status, s.call.status = some status ∧ status ≠ 0 ∧ runCall s = takeMemReadFail status s) ∨
    (s.call.status = some 0 ∧
      runCall s =
        retire ((decode s.cfg (wordOfBytes (Vector.ofFn fun i => fetchByte s.image s.call i))).record s.cfg) s) := by
  rcases memRead_cases s with ⟨hs, hm⟩ | ⟨status, hs, h0, hm⟩ | ⟨hs, hm⟩
  · exact .inl ⟨hs, by simp only [runCall, hm]⟩
  · exact .inr (.inl ⟨status, hs, h0, by simp only [runCall, hm]⟩)
  · exact .inr (.inr ⟨hs, by simp only [runCall, hm, exec_eq_retire]⟩)

theorem takeMemReadFail_of_reportReturns {status : Int} {s : State} (h : s.call.reportReturns = true) :
    takeMemReadFail status s = .next { s with
      out := .memReadFail status s.call.addr
      trace := s.trace ++ [.reportMemoryError status s.call.addr] } := by
  simp only [takeMemReadFail, h, if_true]

theorem takeMemReadFail_not_refused (status : Int) (s : State) (r : Refusal) :
    takeMemReadFail status s ≠ .refused r := by
  unfold takeMemReadFail
  split <;> simp

theorem runCall_not_refused (s : State) (r : Refusal) : runCall s ≠ .refused r := by
  rcases runCall_cases s with ⟨_, hr⟩ | ⟨status, _, _, hr⟩ | ⟨_, hr⟩ <;> rw [hr]
  · simp
  · exact takeMemReadFail_not_refused status s r
  · exact retire_not_refused _ s r

/-- R196: a Step all of whose callbacks return ends. -/
theorem runCall_ends_of_returns {s : State} (h : s.call.returns = true) : ∃ t, runCall s = .next t := by
  obtain ⟨hstatus, hreport, hsymbols⟩ := s.call.returns_iff.mp h
  rcases runCall_cases s with ⟨hs, _⟩ | ⟨status, _, _, hr⟩ | ⟨_, hr⟩
  · simp [hs] at hstatus
  · exact ⟨_, hr.trans (takeMemReadFail_of_reportReturns hreport)⟩
  · obtain ⟨_, hf⟩ := format_ok_of_asked_returns fun a _ => symbolReply_returns hsymbols a
    exact ⟨_, hr.trans (retire_completes hf)⟩

theorem runCall_inputs {s t : State} (h : runCall s = .next t) : t.inputs = s.inputs := by
  rcases runCall_next h with ⟨_, _, _, hm⟩ | ⟨_, hr⟩
  · obtain ⟨_, rfl⟩ := takeMemReadFail_next hm
    rfl
  · obtain ⟨_, _, _, rfl⟩ := retire_next hr
    rfl

/-! ## One step -/

theorem step_of_no_input {s : State} (h : s.inputs = []) : step s = .next s := by
  simp only [step, h]

theorem step_of_reset {s : State} {rest : List Input} (h : s.inputs = .reset :: rest) :
    step s = .next (sessionReset { s with inputs := rest }) := by
  simp only [step, h]

theorem step_of_imageWrite {s : State} {a : Addr} {b : Byte} {rest : List Input}
    (h : s.inputs = .imageWrite a b :: rest) :
    step s = .next { s with inputs := rest, image := Memory.write s.image a.toNat b } := by
  simp only [step, h]

/-- A step that is not a next state is a call's Step that is not one. -/
theorem step_next_or_call (s : State) :
    (∃ t, step s = .next t) ∨
      ∃ c rest, s.inputs = .call c :: rest ∧ step s = runCall (beginCall c rest s) := by
  rcases hi : s.inputs with _ | ⟨_ | ⟨a, b⟩ | c, rest⟩
  · exact .inl ⟨_, step_of_no_input hi⟩
  · exact .inl ⟨_, step_of_reset hi⟩
  · exact .inl ⟨_, step_of_imageWrite hi⟩
  · exact .inr ⟨c, rest, rfl, step_of_call hi⟩

theorem step_not_refused (s : State) (r : Refusal) : step s ≠ .refused r := by
  rcases step_next_or_call s with ⟨t, ht⟩ | ⟨c, rest, _, hc⟩
  · simp [ht]
  · rw [hc]
    exact runCall_not_refused _ r

/-- R196: a step stops only in a call one of whose callbacks never returns. -/
theorem step_fault {s : State} {f : Fault} (h : step s = .fault f) :
    ∃ c rest, s.inputs = .call c :: rest ∧ c.returns = false := by
  rcases step_next_or_call s with ⟨t, ht⟩ | ⟨c, rest, hi, hc⟩
  · simp [ht] at h
  · refine ⟨c, rest, hi, Bool.eq_false_iff.mpr fun hret => ?_⟩
    obtain ⟨t, ht⟩ := runCall_ends_of_returns (s := beginCall c rest s) (by simpa using hret)
    simp [hc, ht] at h

/-- Every step uses up the first pending input and no other. -/
theorem step_inputs {s t : State} (h : step s = .next t) : t.inputs = s.inputs.tail := by
  rcases step_next h with ⟨hi, rfl⟩ | ⟨rest, hi, rfl⟩ | ⟨a, b, rest, hi, rfl⟩ | ⟨c, rest, hi, hr⟩ <;> rw [hi]
  · rfl
  · rfl
  · rfl
  · simpa using runCall_inputs hr

/-! ## A host whose callbacks return -/

theorem hostReturns_of_step {s t : State} (hs : s.hostReturns = true) (h : step s = .next t) :
    t.hostReturns = true := by
  rw [State.hostReturns, List.all_eq_true] at hs ⊢
  rw [step_inputs h]
  exact fun i hi => hs i (List.mem_of_mem_tail hi)

theorem step_ends_of_hostReturns {s : State} (hs : s.hostReturns = true) : ∃ t, step s = .next t := by
  cases h : step s with
  | next t => exact ⟨t, rfl⟩
  | fault f =>
    obtain ⟨c, rest, hi, hc⟩ := step_fault h
    simp [State.hostReturns, hi, Input.returns, hc] at hs
  | refused r => exact absurd h (step_not_refused s r)

theorem runsTo_zero (s : State) : runsTo 0 s s := rfl

theorem runsTo_succ {n : Nat} {s u t : State} (h : step s = .next u) (hrun : runsTo n u t) :
    runsTo (n + 1) s t := by
  have hcore : core.step s = .next u := h
  simpa only [runsTo, Host.Core.run, hcore] using hrun

/-- Settles O59: a returning host keeps returning and lets every step end, so the run goes on by induction on its length. -/
theorem noRunStops : Obligations.NoRunStops := by
  intro s hs n
  induction n generalizing s with
  | zero => exact ⟨s, runsTo_zero s, hs⟩
  | succ n ih =>
    obtain ⟨u, hu⟩ := step_ends_of_hostReturns hs
    obtain ⟨t, hrun, ht⟩ := ih u (hostReturns_of_step hs hu)
    exact ⟨t, runsTo_succ hu hrun, ht⟩

/-- Settles O46: `step_fault` for the stop, whose reason can only be a callback that never returns. -/
theorem noStepIsRefused : Obligations.NoStepIsRefused := by
  refine fun s => ⟨step_not_refused s, ?_⟩
  rintro ⟨cb⟩ h
  obtain ⟨c, rest, hi, hc⟩ := step_fault h
  exact ⟨c, rest, cb, hi, hc, rfl⟩

/-- Settles O55: the two inputs that run no Step, with the image's laws of a read after a write. -/
theorem hostActionsLeaveTheBlockAlone : Obligations.HostActionsLeaveTheBlockAlone := by
  refine fun s => ⟨step_of_no_input, fun a b rest hi => ⟨_, step_of_imageWrite hi, ?_⟩⟩
  exact ⟨rfl, rfl, rfl, rfl, rfl, rfl, rfl, Memory.read_write_same _ _ _,
    fun a' ha' => Memory.read_write_other _ _ ha'⟩

end Sys2Proof.Machine

/-! # The state of the block

The statements of spec/10_state.md: what reset and the first Step of a session leave, which registers an instruction can
change, and the invariant every step keeps. -/

namespace Sys2Proof

/-! ## The instruction a word is, and the slot its record comes from -/

theorem operandsOf_fits (k : InstructionClass) (w : Word) : (operandsOf k w).fits k = true := by
  cases k <;> rfl

theorem Config.optable_3F_of_not_named {c : Config} (h : c.slot3fNamed ≠ true) : c.optable 0x3F#6 = sentinel := by
  rw [Config.optable_3F, if_neg h]

theorem otherSlot_iff {c : Config} {o : Slot} :
    otherSlot c o = true ↔
      o ≠ 0x00#6 ∧ o ≠ 0x21#6 ∧ ¬(o = 0x3F#6 ∧ c.slot3fNamed = true) ∧ o ≠ c.opcLoadHigh ∧ o ≠ c.opcLoadAddr := by
  simp [otherSlot, and_assoc, ← imp_iff_not_or]

/-- Whatever the word, the instruction it decodes to is one of the configuration (R71, R128). -/
theorem decode_wf {c : Config} (hc : c.wf = true) (w : Word) : (decode c w).wf c = true := by
  unfold decode
  split
  · rfl
  split
  · rfl
  split
  next h => exact h.2
  split
  next h3F hslot =>
    have hnamed : c.slot3fNamed ≠ true := fun h => h3F ⟨hslot, h⟩
    obtain ⟨-, -, hHigh⟩ := Config.wf_loadHigh hc
    obtain ⟨-, -, hAddr⟩ := Config.wf_loadAddr hc
    rw [hslot, Instr.wf, Bool.and_eq_true, otherSlot_iff, Config.optable_3F_of_not_named hnamed]
    exact ⟨⟨by decide, by decide, fun h => hnamed h.2, hHigh.symm, hAddr.symm⟩, rfl⟩
  split
  · exact operandsOf_fits _ w
  split
  · rfl
  next h00 h21 h3F _ hHigh hAddr =>
    rw [Instr.wf, Bool.and_eq_true, otherSlot_iff]
    exact ⟨⟨h00, h21, h3F, hHigh, hAddr⟩, operandsOf_fits _ w⟩

theorem Instr.record_desc (c : Config) (i : Instr) : (i.record c).desc = c.optable (i.slot c) := by
  cases i <;> rfl

/-- The class and the number R123 to R128 give a record are those of its descriptor (R120). -/
theorem Instr.record_cls_opcodeId {c : Config} {i : Instr} (hc : c.wf = true) (hi : i.wf c = true) :
    (i.record c).cls = (i.record c).desc.cls ∧ (i.record c).opcodeId = (i.record c).desc.opcodeId := by
  rw [Instr.record_desc]
  cases i with
  | jmp | lw => exact ⟨rfl, rfl⟩
  | unk3F =>
    have hnamed : c.slot3fNamed = true := hi
    rw [Instr.slot, Config.optable_3F, if_pos hnamed]
    exact ⟨rfl, rfl⟩
  | ldhi =>
    rw [Instr.slot, Config.optable_loadHigh hc]
    exact ⟨rfl, rfl⟩
  | lda =>
    rw [Instr.slot, Config.optable_loadAddr hc]
    exact ⟨rfl, rfl⟩
  | dword => exact ⟨rfl, rfl⟩

/-- The number in a record, where there is one, is the instruction's slot (R112). -/
theorem Instr.slot_of_record_opcodeId {c : Config} {i : Instr} {o : Slot} (hc : c.wf = true) (hi : i.wf c = true)
    (h : (i.record c).opcodeId = some o) : i.slot c = o := by
  rw [(Instr.record_cls_opcodeId hc hi).2, Instr.record_desc] at h
  rcases c.optable_opcodeId (i.slot c) with hs | hs <;> rw [hs] at h
  · cases h
  · exact Option.some.inj h

theorem Instr.eq_ldhi_of_slot {c : Config} {i : Instr} (hc : c.wf = true) (hi : i.wf c = true)
    (h : i.slot c = c.opcLoadHigh) : ∃ ops, i = .ldhi ops := by
  obtain ⟨h00, h21, h3F⟩ := Config.wf_loadHigh hc
  cases i with
  | jmp => exact absurd h.symm h00
  | lw => exact absurd h.symm h21
  | unk3F => exact absurd h.symm h3F
  | ldhi ops => exact ⟨ops, rfl⟩
  | lda => exact absurd h.symm (Config.wf_kinds_differ hc)
  | dword o ops =>
    rw [Instr.wf, Bool.and_eq_true, otherSlot_iff] at hi
    obtain ⟨⟨-, -, -, hHigh, -⟩, -⟩ := hi
    exact absurd h hHigh

theorem Instr.eq_lda_of_slot {c : Config} {i : Instr} (hc : c.wf = true) (hi : i.wf c = true)
    (h : i.slot c = c.opcLoadAddr) : ∃ rd rs imm, i = .lda rd rs imm := by
  obtain ⟨h00, h21, h3F⟩ := Config.wf_loadAddr hc
  cases i with
  | jmp => exact absurd h.symm h00
  | lw => exact absurd h.symm h21
  | unk3F => exact absurd h.symm h3F
  | ldhi => exact absurd h (Config.wf_kinds_differ hc)
  | lda rd rs imm => exact ⟨rd, rs, imm, rfl⟩
  | dword o ops =>
    rw [Instr.wf, Bool.and_eq_true, otherSlot_iff] at hi
    obtain ⟨⟨-, -, -, -, hAddr⟩, -⟩ := hi
    exact absurd h hAddr

/-- R68, R195: the register fields of every instruction's record. -/
theorem Laws.RecordFields.all : ∀ i : Instr, Laws.RecordFields.Statement i
  | .jmp imm => jmp imm
  | .lw rd rs rb imm => lw rd rs rb imm
  | .unk3F low => unk3F low
  | .ldhi ops => ldhi ops
  | .lda rd rs imm => lda rd rs imm
  | .dword o ops => dword o ops

end Sys2Proof

namespace Sys2Proof.Machine

/-! ## Which registers an `Update` can change -/

/-- Any record at all: no register but its destination and the forced zero changes. -/
theorem readX_update_other (c : Config) (x : Shadow) (rec : DecodedInstruction) {r : RegIdx} (h0 : r ≠ 0#5)
    (hrd : r ≠ regOf rec.rd) : readX (update c x rec) r = readX x r := by
  rw [readX_update c x rec h0]
  unfold updateKind
  split
  · exact readX_writeX_other x _ hrd
  split
  · exact readX_writeX_other x _ hrd
  · rfl

/-- R155: a record that changes a register other than 0 has that destination and the number of a kind. -/
theorem destination_and_kind_of_changed {c : Config} {x : Shadow} {rec : DecodedInstruction} {r : RegIdx} (h0 : r ≠ 0#5)
    (h : readX (update c x rec) r ≠ readX x r) :
    regOf rec.rd = r ∧ (rec.opcodeId = some c.opcLoadHigh ∨ rec.opcodeId = some c.opcLoadAddr) := by
  constructor
  · by_contra hrd
    exact h (readX_update_other c x rec h0 (Ne.symm hrd))
  · by_contra hkind
    obtain ⟨hHigh, hAddr⟩ := not_or.mp hkind
    rw [update_of_no_kind hHigh hAddr] at h
    exact h (readX_writeX_other x _ h0)

/-- R22, R155: an instruction whose record changes a register other than 0 is a load-high or load-address of that register. -/
theorem instr_of_changed {c : Config} {i : Instr} {x : Shadow} {r : RegIdx} (hc : c.wf = true) (hi : i.wf c = true)
    (h0 : r ≠ 0#5) (h : readX (update c x (i.record c)) r ≠ readX x r) :
    (∃ ops : Operands, ops.rd = r ∧ i = .ldhi ops) ∨ ∃ rs imm, i = .lda r rs imm := by
  obtain ⟨hrd, hk | hk⟩ := destination_and_kind_of_changed h0 h
  · obtain ⟨ops, rfl⟩ := Instr.eq_ldhi_of_slot hc hi (Instr.slot_of_record_opcodeId hc hi hk)
    exact .inl ⟨ops, (regOf_setWidth ops.rd).symm.trans hrd, rfl⟩
  · obtain ⟨rd, rs, imm, rfl⟩ := Instr.eq_lda_of_slot hc hi (Instr.slot_of_record_opcodeId hc hi hk)
    obtain rfl : rd = r := (regOf_setWidth rd).symm.trans hrd
    exact .inr ⟨rs, imm, rfl⟩

/-! ## What the end of a Step leaves unchanged -/

theorem retire_x {rec : DecodedInstruction} {s t : State} (h : retire rec s = .next t) :
    t.x = update s.cfg s.x rec := by
  obtain ⟨_, _, _, rfl⟩ := retire_next h
  rfl

theorem exec_x {i : Instr} {s t : State} (h : exec i s = .next t) : t.x = update s.cfg s.x (i.record s.cfg) :=
  retire_x ((exec_eq_retire i s).symm.trans h)

/-- R46, R103: an instruction that completes stores nothing and touches neither the session nor the host's side. -/
theorem exec_frame {i : Instr} {s t : State} (h : exec i s = .next t) :
    t.created = s.created ∧ t.cfg = s.cfg ∧ t.inputs = s.inputs ∧ t.call = s.call ∧
      ∀ a : Nat, Memory.read t.image a = Memory.read s.image a := by
  rw [exec_eq_retire] at h
  obtain ⟨_, _, _, rfl⟩ := retire_next h
  exact ⟨rfl, rfl, rfl, rfl, fun _ => rfl⟩

/-- R22: an instruction changes no register but the destination in its record, and 0. -/
theorem exec_readX_other {i : Instr} {s t : State} (h : exec i s = .next t) {r : RegIdx} (h0 : r ≠ 0#5)
    (hrd : r ≠ regOf (i.record s.cfg).rd) : readX t.x r = readX s.x r := by
  rw [exec_x h]
  exact readX_update_other _ _ _ h0 hrd

theorem runCall_created {s t : State} (h : runCall s = .next t) : t.created = s.created := by
  rcases runCall_next h with ⟨_, _, _, hm⟩ | ⟨_, hr⟩
  · obtain ⟨_, rfl⟩ := takeMemReadFail_next hm
    rfl
  · obtain ⟨_, _, _, rfl⟩ := retire_next hr
    rfl

/-- R155: a register other than 0 that a Step under way changes was the destination of the load-high or load-address fetched. -/
theorem fetched_kind_of_changed {s t : State} {r : RegIdx} (hc : s.cfg.wf = true) (h0 : r ≠ 0#5)
    (h : runCall s = .next t) (hne : readX t.x r ≠ readX s.x r) :
    s.call.status = some 0 ∧
      ((∃ ops : Operands, ops.rd = r ∧
          decode s.cfg (wordOfBytes (Vector.ofFn fun k => fetchByte s.image s.call k)) = .ldhi ops) ∨
        ∃ rs imm, decode s.cfg (wordOfBytes (Vector.ofFn fun k => fetchByte s.image s.call k)) = .lda r rs imm) := by
  rcases runCall_next h with ⟨_, _, _, hm⟩ | ⟨hs, hr⟩
  · obtain ⟨_, rfl⟩ := takeMemReadFail_next hm
    exact absurd rfl hne
  · rw [retire_x hr] at hne
    exact ⟨hs, instr_of_changed hc (decode_wf hc _) h0 hne⟩

/-! ## The invariant -/

theorem readX_update_zero (c : Config) (x : Shadow) (rec : DecodedInstruction) : readX (update c x rec) 0#5 = 0#32 :=
  readX_writeX_same _ _ _

theorem recordOk_record {c : Config} {i : Instr} (hc : c.wf = true) (hi : i.wf c = true) : recordOk c (i.record c) := by
  obtain ⟨hrd, hrs, hrb⟩ := Laws.RecordFields.all i c
  obtain ⟨hcls, hid⟩ := Instr.record_cls_opcodeId hc hi
  exact ⟨hrd, hrs, hrb, hcls, hid, i.slot c, Instr.record_desc c i⟩

/-- The start of a Step keeps the invariant: a shadow it creates has `x[0] = 0` (R25). -/
theorem State.Inv.beginCall {s : State} (hs : s.Inv) (c : Call) (rest : List Input) : (beginCall c rest s).Inv where
  image_wf := by simpa using hs.image_wf
  cfg_wf := by simpa using hs.cfg_wf
  zero_reads_zero _ := by
    rw [beginCall_x]
    split
    · exact hs.zero_reads_zero ‹_›
    · exact readX_initialShadow_zero s.cfg
  out_ok := by simpa using hs.out_ok

/-- A Step under way keeps the invariant, whether it takes the fault or completes. -/
theorem State.Inv.runCall {s t : State} (hs : s.Inv) (h : runCall s = .next t) : t.Inv := by
  rcases runCall_next h with ⟨_, _, hstatus, hm⟩ | ⟨_, hr⟩
  · obtain ⟨_, rfl⟩ := takeMemReadFail_next hm
    exact ⟨hs.image_wf, hs.cfg_wf, hs.zero_reads_zero, hstatus⟩
  · obtain ⟨_, _, _, rfl⟩ := retire_next hr
    exact ⟨hs.image_wf, hs.cfg_wf, fun _ => readX_update_zero _ _ _,
      rfl, recordOk_record hs.cfg_wf (decode_wf hs.cfg_wf _)⟩

/-- Settles O58, by the four things a step can do. -/
theorem stepKeepsInvariant : Obligations.StepKeepsInvariant := by
  intro s t hs h
  rcases step_next h with ⟨_, rfl⟩ | ⟨rest, _, rfl⟩ | ⟨a, b, rest, _, rfl⟩ | ⟨c, rest, _, hr⟩
  · exact hs
  · exact ⟨hs.image_wf, hs.cfg_wf, nofun, hs.out_ok⟩
  · exact ⟨Memory.wf_write b hs.image_wf a.isLt, hs.cfg_wf, hs.zero_reads_zero, hs.out_ok⟩
  · exact (hs.beginCall c rest).runCall hr

/-- Settles O57: reset has listed no byte, created no shadow and put out nothing, under a well-formed configuration. -/
theorem resetMeetsInvariant : Obligations.ResetMeetsInvariant :=
  ⟨Memory.wf_reset, refcfg_wf, nofun, trivial⟩

/-! ## Frames -/

/-- Settles O28: `exec_frame`, and `instr_of_changed` for the registers. -/
theorem frameOfInstructionsOfNoKind : Obligations.FrameOfInstructionsOfNoKind := by
  intro i s t hc hi hldhi hlda h
  refine ⟨fun r h0 => ?_, exec_frame h⟩
  by_contra hne
  rw [exec_x h] at hne
  rcases instr_of_changed hc hi h0 hne with ⟨ops, _, hi'⟩ | ⟨rs, imm, hi'⟩
  · exact hldhi ops hi'
  · exact hlda r rs imm hi'

/-- Settles O29: `exec_frame`, and `exec_readX_other` for the registers. -/
theorem frameOfShadowKinds : Obligations.FrameOfShadowKinds := by
  refine fun s t => ⟨fun ops h => ⟨fun r h0 hrd => ?_, exec_frame h⟩, fun rd rs imm h => ⟨fun r h0 hrd => ?_, exec_frame h⟩⟩
  · exact exec_readX_other h h0 (hrd.trans_eq (regOf_setWidth ops.rd).symm)
  · exact exec_readX_other h h0 (hrd.trans_eq (regOf_setWidth rd).symm)

/-- Settles O53: of the four things a step can do only a call reaches the shadow, and there `fetched_kind_of_changed` holds. -/
theorem onlyTheTwoKindsChangeTheShadow : Obligations.OnlyTheTwoKindsChangeTheShadow := by
  intro s t r hc hcreated h0 h hne
  rcases step_next h with ⟨_, rfl⟩ | ⟨rest, _, rfl⟩ | ⟨a, b, rest, _, rfl⟩ | ⟨c, rest, hi, hr⟩
  · exact absurd rfl hne
  · exact absurd rfl hne
  · exact absurd rfl hne
  · have hx : (beginCall c rest s).x = s.x := by rw [beginCall_x, if_pos hcreated]
    have hkind := fetched_kind_of_changed (by rwa [beginCall_cfg]) h0 hr (by rwa [hx])
    simp only [beginCall_call, beginCall_cfg, beginCall_image] at hkind
    exact ⟨c, rest, hi, hkind⟩

/-! ## A new shadow -/

theorem readX_initialShadow_succ (c : Config) (k : Fin 31) :
    readX (initialShadow c) (BitVec.ofNat 5 (k.val + 1)) = c.shadowReset[k] := by
  have hk : (k.val + 1) % 32 = k.val + 1 := Nat.mod_eq_of_lt (by omega)
  simp [readX, initialShadow, hk]

/-- R25: a Step that creates the shadow begins as one whose shadow is already the new one. -/
theorem beginCall_of_not_created (c : Call) (rest : List Input) {s : State} (h : s.created = false) :
    beginCall c rest s = beginCall c rest { s with created := true, x := initialShadow s.cfg } := by
  simp [beginCall, ensureCreated, h]

/-- Settles O39 with the new shadow of R25. -/
theorem firstStepCreatesShadow : Obligations.FirstStepCreatesShadow := by
  intro s c rest hcreated hi
  have hi' : ({ s with created := true, x := initialShadow s.cfg } : State).inputs = .call c :: rest := hi
  refine ⟨initialShadow s.cfg, readX_initialShadow_zero s.cfg, readX_initialShadow_succ s.cfg, ?_, fun t ht => ?_⟩
  · rw [step_of_call hi, step_of_call hi', beginCall_of_not_created c rest hcreated]
  · rw [step_of_call hi] at ht
    rw [runCall_created ht, beginCall_created]

/-- Settles O41: `x` at reset is a new shadow of the reset configuration. -/
theorem resetState : Obligations.ResetState :=
  ⟨rfl, readX_initialShadow_zero refcfg, readX_initialShadow_succ refcfg⟩

/-! ## Numbers in decimal -/

/-- Digits read back as the number, when there is room for all of them and each digit reads back. -/
theorem foldl_digitsIn {base : Nat} {digit : Nat → Char} {value : Char → Nat} (hdigit : ∀ d < base, value (digit d) = d)
    {fuel n : Nat} (hn : n < base ^ fuel) :
    (digitsIn base digit fuel n).foldl (fun v d => v * base + value d) 0 = n := by
  induction fuel generalizing n with
  | zero =>
    obtain rfl : n = 0 := by simpa using hn
    rfl
  | succ fuel ih =>
    unfold digitsIn
    split
    next hlt => simp [hdigit n hlt]
    next hge =>
      have hbase : 0 < base := Nat.pos_of_ne_zero fun h => by simp [h] at hn
      have hdiv : n / base < base ^ fuel := Nat.div_lt_of_lt_mul (by rwa [pow_succ'] at hn)
      rw [List.foldl_append, ih hdiv]
      simp [hdigit _ (Nat.mod_lt n hbase), Nat.div_add_mod']

theorem lowerDigit_toNat : ∀ d < 10, (lowerDigit d).toNat - 48 = d := by decide

theorem decimal_toList (n : Nat) : (decimal n).toList = digitsIn 10 lowerDigit 5 n :=
  String.toList_ofList

theorem decimal_readsBack {n : Nat} (hn : n < 10 ^ 5) :
    (decimal n).toList.foldl (fun v d => v * 10 + (d.toNat - 48)) 0 = n := by
  rw [decimal_toList]
  exact foldl_digitsIn (value := fun d => d.toNat - 48) lowerDigit_toNat hn

theorem length_decimal {n : Nat} (hn : n < 100) : (decimal n).length = if n < 10 then 1 else 2 := by
  have hdiv : n / 10 < 10 := by omega
  rw [← String.length_toList, decimal_toList]
  by_cases h : n < 10 <;> simp [digitsIn, h, hdiv]

/-- Settles O35: a register index is below 32, so its decimal text has room and at most two digits. -/
theorem registerNumberReadsBack : Obligations.RegisterNumberReadsBack := by
  intro r
  have hr : r.toNat < 32 := r.isLt
  exact ⟨decimal_readsBack (by omega), length_decimal (by omega)⟩

end Sys2Proof.Machine

/-! # The image and the fetch

The statements of spec/20_memory.md: the word a Step fetches is the big-endian number of the four bytes its one read delivers,
whatever the address, and the block stores nothing. -/

namespace Sys2Proof

/-! ## Bytes and words -/

/-- R41: the word is its bytes side by side, the byte at the lowest address on top: bit `i` belongs to one of them, by where
`i` stands among 8, 16 and 24, and the bytes above and below it have no such bit. -/
theorem wordOfBytes_eq_append (b : Vector Byte 4) : wordOfBytes b = (b[0] ++ (b[1] ++ (b[2] ++ b[3]))).cast rfl := by
  apply BitVec.eq_of_getLsbD_eq
  intro i hi
  simp only [wordOfBytes, BitVec.getLsbD_or, BitVec.getLsbD_shiftLeft, BitVec.getLsbD_setWidth, BitVec.getLsbD_cast,
    BitVec.getLsbD_append]
  have hsub (k : Nat) : i - k < 32 := Nat.lt_of_le_of_lt (Nat.sub_le i k) hi
  by_cases h8 : i < 8
  · have h16 : i < 16 := by omega
    have h24 : i < 24 := by omega
    simp [hi, h8, h16, h24]
  by_cases h16 : i < 16
  · have h24 : i < 24 := by omega
    simp [hi, hsub, h8, h16, h24, BitVec.getLsbD_of_ge b[3] i (by omega)]
  by_cases h24 : i < 24
  · simp [hi, hsub, h8, h16, h24, BitVec.getLsbD_of_ge b[3] i (by omega), BitVec.getLsbD_of_ge b[2] (i - 8) (by omega)]
  · simp [hi, hsub, h8, h16, h24, BitVec.getLsbD_of_ge b[3] i (by omega), BitVec.getLsbD_of_ge b[2] (i - 8) (by omega),
      BitVec.getLsbD_of_ge b[1] (i - 16) (by omega)]

theorem toNat_append_eq_mul_add {m n : Nat} (x : BitVec m) (y : BitVec n) :
    (x ++ y).toNat = x.toNat * 2 ^ n + y.toNat := by
  rw [BitVec.toNat_append, ← Nat.shiftLeft_add_eq_or_of_lt y.isLt, Nat.shiftLeft_eq]

theorem toNat_wordOfBytes (b : Vector Byte 4) :
    (wordOfBytes b).toNat = b[0].toNat * 2 ^ 24 + b[1].toNat * 2 ^ 16 + b[2].toNat * 2 ^ 8 + b[3].toNat := by
  rw [wordOfBytes_eq_append, BitVec.toNat_cast]
  simp only [toNat_append_eq_mul_add]
  omega

theorem toNat_opcodeOf (w : Word) : (opcodeOf w).toNat = w.toNat / 2 ^ 26 := by
  have := w.isLt
  rw [opcodeOf, BitVec.extractLsb'_toNat, Nat.shiftRight_eq_div_pow]
  omega

/-- The bytes of a word are its digits in base 256, so the word they make is the word. -/
theorem wordOfBytes_bytesOfWord (w : Word) : wordOfBytes (bytesOfWord w) = w := by
  apply BitVec.eq_of_toNat_eq
  have := w.isLt
  simp only [toNat_wordOfBytes, bytesOfWord, Vector.getElem_mk, List.getElem_toArray, List.getElem_cons_zero,
    List.getElem_cons_succ, BitVec.extractLsb'_toNat, Nat.shiftRight_eq_div_pow]
  omega

end Sys2Proof

namespace Sys2Proof.Machine

/-- Settles O13: the sum of `toNat_wordOfBytes` taken apart at bits 26 and 24. -/
theorem instructionWordIsBigEndian : Obligations.InstructionWordIsBigEndian := by
  intro b
  have h1 := b[1].isLt
  have h2 := b[2].isLt
  have h3 := b[3].isLt
  rw [toNat_opcodeOf, toNat_wordOfBytes]
  omega

/-! ## The bytes a read delivers -/

theorem fetchByte_write (m : Memory) (a : Nat) (b : Byte) (c : Call) (i : Fin 4) :
    fetchByte (Memory.write m a b) c i = if c.addr.toNat + i.val = a then b else fetchByte m c i := by
  unfold fetchByte
  split
  next h => rw [h, Memory.read_write_same, Option.getD_some]
  next h => rw [Memory.read_write_other m b h]

theorem read_placeByte_same {addr : Addr} {i : Nat} (b : Byte) (m : Memory) (h : addr.toNat + i < 2 ^ 64) :
    Memory.read (placeByte addr b i m) (addr.toNat + i) = some b := by
  rw [placeByte, if_pos h, Memory.read_write_same]

theorem read_placeByte_other {i j : Nat} (addr : Addr) (b : Byte) (m : Memory) (h : j ≠ i) :
    Memory.read (placeByte addr b i m) (addr.toNat + j) = Memory.read m (addr.toNat + j) := by
  unfold placeByte
  split
  · exact Memory.read_write_other m b (by omega)
  · rfl

/-! ## What a Step under way does -/

theorem runCall_of_zero_status {s : State} (h : s.call.status = some 0) :
    runCall s = exec (decode s.cfg (wordOfBytes (Vector.ofFn fun i => fetchByte s.image s.call i))) s := by
  rcases runCall_cases s with ⟨hs, _⟩ | ⟨status, hs, h0, _⟩ | ⟨_, hr⟩
  · simp [h] at hs
  · simp [h, h0.symm] at hs
  · rw [hr, exec_eq_retire]

/-- R130, R190: the outcome of a Step that ends, by the host's status. -/
theorem runCall_out {s t : State} {status : Int} (hs : s.call.status = some status) (h : runCall s = .next t) :
    (status = 0 → ∃ rec text, t.out = .completed rec text 4) ∧
      (status ≠ 0 → t.out = .memReadFail status s.call.addr) := by
  rcases runCall_next h with ⟨status', hs', h0, hm⟩ | ⟨hs', hr⟩
  · obtain rfl : status = status' := Option.some.inj (hs.symm.trans hs')
    obtain ⟨_, rfl⟩ := takeMemReadFail_next hm
    exact ⟨fun hz => absurd hz h0, fun _ => rfl⟩
  · obtain rfl : status = 0 := Option.some.inj (hs.symm.trans hs')
    obtain ⟨text, _, _, rfl⟩ := retire_next hr
    exact ⟨fun _ => ⟨_, text, rfl⟩, fun hne => absurd rfl hne⟩

/-- R150, R191: the shadow after a Step that ends: the fetched word's update, or as it was when the read failed. -/
theorem runCall_x {s t : State} (h : runCall s = .next t) :
    t.x = if s.call.status = some 0 then
        update s.cfg s.x ((decode s.cfg (wordOfBytes (Vector.ofFn fun i => fetchByte s.image s.call i))).record s.cfg)
      else s.x := by
  rcases runCall_next h with ⟨status, hs, h0, hm⟩ | ⟨hs, hr⟩
  · obtain ⟨_, rfl⟩ := takeMemReadFail_next hm
    rw [if_neg (by simp [hs, h0])]
  · rw [if_pos hs, retire_x hr]

/-- R46: neither the fault nor a record stores. -/
theorem runCall_image {s t : State} (h : runCall s = .next t) : t.image = s.image := by
  rcases runCall_next h with ⟨_, _, _, hm⟩ | ⟨_, hr⟩
  · obtain ⟨_, rfl⟩ := takeMemReadFail_next hm
    rfl
  · obtain ⟨_, _, _, rfl⟩ := retire_next hr
    rfl

/-! ## The callbacks of a Step -/

/-- R178: the callbacks made for a line are the ones about the address its record asks about, if any. -/
theorem format_calls {c : Config} {rec : DecodedInstruction} {addr : Addr} {x : Shadow}
    {symbols : List (Addr × SymbolReply)} {text : String} {calls : List HostCall}
    (h : format c rec addr x symbols = .ok (text, calls)) :
    calls = (askedAddress c rec addr x).elim [] fun a => symbolCallbacks a (symbolReply symbols a) := by
  cases ha : askedAddress c rec addr x with
  | none =>
    obtain ⟨_, hf⟩ := format_of_not_asked symbols ha
    cases hf.symm.trans h
    rfl
  | some a =>
    obtain ⟨before, hf⟩ := format_of_asked symbols ha
    rw [hf] at h
    rw [Option.elim_some]
    rcases withComment_cases before symbols a with ⟨hr, hw⟩ | ⟨_, hr, hw⟩ | ⟨_, hw⟩ | ⟨_, hw⟩ <;>
      cases hw.symm.trans h
    · rw [hr, symbolCallbacks]
    · rw [hr, symbolCallbacks]

theorem readMemory_not_mem_symbolCallbacks (a b : Addr) (n : Nat) (r : SymbolReply) :
    HostCall.readMemory b n ∉ symbolCallbacks a r := by
  cases r <;> simp [symbolCallbacks]

theorem readMemory_not_mem_format {c : Config} {rec : DecodedInstruction} {addr : Addr} {x : Shadow}
    {symbols : List (Addr × SymbolReply)} {text : String} {calls : List HostCall}
    (h : format c rec addr x symbols = .ok (text, calls)) (a : Addr) (n : Nat) :
    HostCall.readMemory a n ∉ calls := by
  rw [format_calls h]
  cases askedAddress c rec addr x with
  | none => exact List.not_mem_nil
  | some b => exact readMemory_not_mem_symbolCallbacks b a n _

/-- R44: after its read a Step makes callbacks, but never another read. -/
theorem runCall_trace {s t : State} (h : runCall s = .next t) :
    ∃ later, t.trace = s.trace ++ later ∧ ∀ a n, HostCall.readMemory a n ∉ later := by
  rcases runCall_next h with ⟨_, _, _, hm⟩ | ⟨_, hr⟩
  · obtain ⟨_, rfl⟩ := takeMemReadFail_next hm
    exact ⟨_, rfl, by simp⟩
  · obtain ⟨_, calls, hf, rfl⟩ := retire_next hr
    exact ⟨calls, rfl, readMemory_not_mem_format hf⟩

/-! ## The Step of a call -/

/-- Settles O44: the Step ends (`runCall_ends_of_returns`), and `runCall_out` gives its outcome. -/
theorem zeroStatusAlwaysCompletes : Obligations.ZeroStatusAlwaysCompletes := by
  intro s c rest status hi hret hs
  rw [step_of_call hi]
  obtain ⟨t, ht⟩ := runCall_ends_of_returns (s := beginCall c rest s) (by rwa [beginCall_call])
  obtain ⟨hzero, hfail⟩ := runCall_out (by rwa [beginCall_call]) ht
  rw [beginCall_call] at hfail
  refine ⟨fun h0 => ?_, fun h0 => ⟨t, ht, hfail h0⟩⟩
  obtain ⟨rec, text, hout⟩ := hzero h0
  exact ⟨t, rec, text, ht, hout⟩

/-- Settles O47: the trace begins as the one read (`beginCall_trace`), and `runCall_trace` adds no other. -/
theorem oneFourByteReadPerStep : Obligations.OneFourByteReadPerStep := by
  intro s t c rest hi h
  rw [step_of_call hi] at h
  obtain ⟨later, htrace, hlater⟩ := runCall_trace h
  rw [beginCall_trace] at htrace
  exact ⟨later, htrace, hlater⟩

/-- Settles O48, by `runCall_image`. -/
theorem blockNeverWritesMemory : Obligations.BlockNeverWritesMemory := by
  intro s t c rest hi h
  rw [step_of_call hi] at h
  have himage : t.image = s.image := (runCall_image h).trans (beginCall_image c rest s)
  exact ⟨fun a => by rw [himage], himage⟩

/-- Settles O50: the host's change touches the image alone, and the fetch that follows reads it (`fetchByte_write`). -/
theorem fetchSeesTheHostsChange : Obligations.FetchSeesTheHostsChange := by
  intro s t a b c rest hi hs h
  cases (step_of_imageWrite hi).symm.trans h
  refine ⟨rfl, rfl, rfl, rfl, ?_⟩
  rw [step_of_call rfl, runCall_of_zero_status (by rwa [beginCall_call])]
  simp only [beginCall_cfg, beginCall_image, beginCall_call, fetchByte_write]

/-- Settles O52: `runCall_x` gives the shadow from the configuration, the old shadow, the status and the bytes, no address. -/
theorem alignmentDoesNotMatter : Obligations.AlignmentDoesNotMatter := by
  intro s s' t t' c c' rest rest' hi hi' hcfg hx hcreated hstatus hbytes h h'
  rw [step_of_call hi] at h
  rw [step_of_call hi'] at h'
  rw [runCall_x h, runCall_x h']
  simp only [beginCall_x, beginCall_cfg, beginCall_image, beginCall_call, hcfg, hx, hcreated, hstatus, hbytes]

/-! ## A placed word -/

theorem ofNat_toNat_mod (w : Word) : BitVec.ofNat 32 (w.toNat % 2 ^ 32) = w := by
  rw [Nat.mod_eq_of_lt w.isLt, BitVec.ofNat_toNat, BitVec.setWidth_eq]

theorem withFetchWord_inputs (s : State) (w : Word) :
    (s.withFetchWord 32 w.toNat).inputs = .call ((nextCall s).1.delivering w) :: (nextCall s).2 := by
  simp only [State.withFetchWord, ofNat_toNat_mod]

theorem withFetchWord_image (s : State) (w : Word) :
    (s.withFetchWord 32 w.toNat).image =
      placeByte (nextCall s).1.addr (bytesOfWord w)[3] 3 (placeByte (nextCall s).1.addr (bytesOfWord w)[2] 2
        (placeByte (nextCall s).1.addr (bytesOfWord w)[1] 1
          (placeByte (nextCall s).1.addr (bytesOfWord w)[0] 0 s.image))) := by
  simp only [State.withFetchWord, ofNat_toNat_mod]

theorem read_withFetchWord {s : State} (w : Word) {i : Nat} (hi : i < 4) (h : (nextCall s).1.addr.toNat + i < 2 ^ 64) :
    Memory.read (s.withFetchWord 32 w.toNat).image ((nextCall s).1.addr.toNat + i) = some (bytesOfWord w)[i] := by
  rw [withFetchWord_image]
  interval_cases i <;> simp (disch := decide) only [read_placeByte_other, read_placeByte_same _ _ h]

/-- A byte of a placed word at a `u64` address is the image's, and one past the top is the call's own, since a canonical
image lists none there. -/
theorem fetchByte_withFetchWord {s : State} (hm : Memory.wf s.image = true) (w : Word) (i : Fin 4) :
    fetchByte (s.withFetchWord 32 w.toNat).image ((nextCall s).1.delivering w) i = (bytesOfWord w)[i] := by
  simp only [fetchByte, Call.delivering]
  by_cases h : (nextCall s).1.addr.toNat + i.val < 2 ^ 64
  · rw [read_withFetchWord w i.isLt h]
    rfl
  · rw [Memory.read_of_wfAbove (Memory.wf_withFetchWord 32 w.toNat hm) (Nat.le_of_not_lt h), Option.getD_none]
    simp only [Fin.getElem_fin, Vector.getElem_ofFn, if_neg h]

/-- Settles O56: the fetch delivers the placed bytes, and they make the word (`wordOfBytes_bytesOfWord`). -/
theorem placedWordRuns : Obligations.PlacedWordRuns := by
  intro s w hm
  refine ⟨_, _, withFetchWord_inputs s w, ?_⟩
  have hbytes : (Vector.ofFn fun i => (bytesOfWord w)[i]) = bytesOfWord w := Vector.ext fun i hi => by simp
  rw [step_of_call (withFetchWord_inputs s w), runCall_of_zero_status (by rw [beginCall_call]; rfl)]
  simp only [beginCall_cfg, beginCall_image, beginCall_call, withFetchWord_cfg, fetchByte_withFetchWord hm, hbytes,
    wordOfBytes_bytesOfWord]

end Sys2Proof.Machine

/-! # Decoding and encoding

The statements of spec/30_encoding.md: every word is a slot and the operand fields of the slot's class, the decoder and the
encoder undo one another, and a record holds every bit of its word. -/

namespace Sys2Proof

/-! ## The operand fields of a word are those of its low 26 bits (R63 to R66) -/

theorem toNat_low26 (w : Word) : (low26 w).toNat = w.toNat % 2 ^ 26 := by
  rw [low26, BitVec.extractLsb'_toNat, Nat.shiftRight_zero]

theorem toNat_rdOf (w : Word) : (rdOf w).toNat = (low26 w).toNat / 2 ^ 21 := by
  rw [rdOf, toNat_low26, BitVec.extractLsb'_toNat, Nat.shiftRight_eq_div_pow]
  omega

theorem toNat_rsOf (w : Word) : (rsOf w).toNat = (low26 w).toNat / 2 ^ 16 % 2 ^ 5 := by
  rw [rsOf, toNat_low26, BitVec.extractLsb'_toNat, Nat.shiftRight_eq_div_pow]
  omega

theorem toNat_rbOf (w : Word) : (rbOf w).toNat = (low26 w).toNat / 2 ^ 11 % 2 ^ 5 := by
  rw [rbOf, toNat_low26, BitVec.extractLsb'_toNat, Nat.shiftRight_eq_div_pow]
  omega

theorem toNat_imm11Of (w : Word) : (imm11Of w).toNat = (low26 w).toNat % 2 ^ 11 := by
  rw [imm11Of, toNat_low26, BitVec.extractLsb'_toNat, Nat.shiftRight_zero]
  omega

theorem toNat_imm16Of (w : Word) : (imm16Of w).toNat = (low26 w).toNat % 2 ^ 16 := by
  rw [imm16Of, toNat_low26, BitVec.extractLsb'_toNat, Nat.shiftRight_zero]
  omega

theorem toNat_low_register (rd rs rb : RegIdx) (imm : BitVec 11) :
    (Operands.register rd rs rb imm).low.toNat =
      rd.toNat * 2 ^ 21 + rs.toNat * 2 ^ 16 + rb.toNat * 2 ^ 11 + imm.toNat := by
  simp only [Operands.low, toNat_append_eq_mul_add]
  omega

theorem toNat_low_immediate (rd rs : RegIdx) (imm : BitVec 16) :
    (Operands.immediate rd rs imm).low.toNat = rd.toNat * 2 ^ 21 + rs.toNat * 2 ^ 16 + imm.toNat := by
  simp only [Operands.low, toNat_append_eq_mul_add]
  omega

/-- No field of a class overlaps another and together they are all 26 bits, so packing a word's operands gives those bits. -/
@[simp] theorem low_operandsOf (k : InstructionClass) (w : Word) : (operandsOf k w).low = low26 w := by
  have hlow := (low26 w).isLt
  cases k with
  | register =>
    apply BitVec.eq_of_toNat_eq
    rw [operandsOf, toNat_low_register, toNat_rdOf, toNat_rsOf, toNat_rbOf, toNat_imm11Of]
    omega
  | immediate =>
    apply BitVec.eq_of_toNat_eq
    rw [operandsOf, toNat_low_immediate, toNat_rdOf, toNat_rsOf, toNat_imm16Of]
    omega
  | jump | invalid => rfl

theorem fields_of_low_register {w : Word} {rd rs rb : RegIdx} {imm : BitVec 11}
    (h : low26 w = (Operands.register rd rs rb imm).low) :
    rdOf w = rd ∧ rsOf w = rs ∧ rbOf w = rb ∧ imm11Of w = imm := by
  simp only [← BitVec.toNat_inj, toNat_rdOf, toNat_rsOf, toNat_rbOf, toNat_imm11Of, h, toNat_low_register]
  omega

theorem fields_of_low_immediate {w : Word} {rd rs : RegIdx} {imm : BitVec 16}
    (h : low26 w = (Operands.immediate rd rs imm).low) : rdOf w = rd ∧ rsOf w = rs ∧ imm16Of w = imm := by
  simp only [← BitVec.toNat_inj, toNat_rdOf, toNat_rsOf, toNat_imm16Of, h, toNat_low_immediate]
  omega

/-- The other way round: the operands of class `k` read from the 26 bits that `ops` packs to are `ops`. -/
theorem operandsOf_eq_of_low26 {k : InstructionClass} {ops : Operands} {w : Word} (hfits : ops.fits k = true)
    (hlow : low26 w = ops.low) : operandsOf k w = ops := by
  cases ops <;> obtain rfl : k = _ := of_decide_eq_true hfits
  case register rd rs rb imm =>
    obtain ⟨hrd, hrs, hrb, himm⟩ := fields_of_low_register hlow
    rw [operandsOf, hrd, hrs, hrb, himm]
  case immediate rd rs imm =>
    obtain ⟨hrd, hrs, himm⟩ := fields_of_low_immediate hlow
    rw [operandsOf, hrd, hrs, himm]
  case jump imm => exact congrArg Operands.jump hlow
  case raw low => exact congrArg Operands.raw hlow

/-! ## What a word decodes to, by its slot -/

section
variable {c : Config} {w : Word}

theorem decode_of_jmp_slot (h : opcodeOf w = 0x00#6) : decode c w = .jmp (low26 w) := if_pos h

theorem decode_of_lw_slot (h : opcodeOf w = 0x21#6) :
    decode c w = .lw (rdOf w) (rsOf w) (rbOf w) (imm11Of w) := by
  simp [decode, h]

theorem decode_of_unk3F_slot (h : opcodeOf w = 0x3F#6) (hnamed : c.slot3fNamed = true) :
    decode c w = .unk3F (low26 w) := by
  simp [decode, h, hnamed]

theorem decode_of_loadHigh_slot (hc : c.wf = true) (h : opcodeOf w = c.opcLoadHigh) :
    decode c w = .ldhi (operandsOf c.classLoadHigh w) := by
  obtain ⟨h00, h21, h3F⟩ := Config.wf_loadHigh hc
  simp [decode, h, h00, h21, h3F]

theorem decode_of_loadAddr_slot (hc : c.wf = true) (h : opcodeOf w = c.opcLoadAddr) :
    decode c w = .lda (rdOf w) (rsOf w) (imm16Of w) := by
  obtain ⟨h00, h21, h3F⟩ := Config.wf_loadAddr hc
  simp [decode, h, h00, h21, h3F, (Config.wf_kinds_differ hc).symm]

/-- R128, the unnamed slot 0x3F included: its descriptor is the sentinel, of class Invalid. -/
theorem decode_of_otherSlot (h : otherSlot c (opcodeOf w) = true) :
    decode c w = .dword (opcodeOf w) (operandsOf (c.optable (opcodeOf w)).cls w) := by
  obtain ⟨h00, h21, h3F, hHigh, hAddr⟩ := otherSlot_iff.mp h
  by_cases hslot : opcodeOf w = 0x3F#6
  · have hnamed : c.slot3fNamed ≠ true := fun hn => h3F ⟨hslot, hn⟩
    simp [decode, hslot, hnamed, Config.optable_3F_of_not_named hnamed, sentinel, operandsOf]
  · simp [decode, hslot, h00, h21, hHigh, hAddr]

/-- A word with the slot and the 26 bits of a well-formed instruction decodes to it. -/
theorem decode_eq_of_slot_low {i : Instr} (hc : c.wf = true) (hi : i.wf c = true) (hslot : opcodeOf w = i.slot c)
    (hlow : low26 w = i.low) : decode c w = i := by
  cases i with
  | jmp imm => exact (decode_of_jmp_slot hslot).trans (congrArg Instr.jmp hlow)
  | lw rd rs rb imm =>
    obtain ⟨hrd, hrs, hrb, himm⟩ := fields_of_low_register hlow
    rw [decode_of_lw_slot hslot, hrd, hrs, hrb, himm]
  | unk3F low => exact (decode_of_unk3F_slot hslot hi).trans (congrArg Instr.unk3F hlow)
  | ldhi ops => rw [decode_of_loadHigh_slot hc hslot, operandsOf_eq_of_low26 hi hlow]
  | lda rd rs imm =>
    obtain ⟨hrd, hrs, himm⟩ := fields_of_low_immediate hlow
    rw [decode_of_loadAddr_slot hc hslot, hrd, hrs, himm]
  | dword o ops =>
    obtain rfl : opcodeOf w = o := hslot
    obtain ⟨hother, hfits⟩ := (Bool.and_eq_true _ _).mp hi
    rw [decode_of_otherSlot hother, operandsOf_eq_of_low26 hfits hlow]

end

/-- Settles O6: an encoded instruction has its own slot and its own 26 bits, and `decode_eq_of_slot_low` reads them back. -/
theorem decodeOfEncodeIsIdentity : Obligations.DecodeOfEncodeIsIdentity :=
  fun c i hc hi => decode_eq_of_slot_low hc hi (opcodeOf_encode c i) (low26_encode c i)

/-! ## Decoding drops no bit -/

/-- Under any configuration, the slot of the instruction a word decodes to is the word's opcode. -/
@[simp] theorem slot_decode (c : Config) (w : Word) : (decode c w).slot c = opcodeOf w := by
  unfold decode
  split
  next h => exact h.symm
  split
  next h => exact h.symm
  split
  next h => exact h.1.symm
  split
  · rfl
  split
  next h => exact h.symm
  split
  next h => exact h.symm
  · rfl

/-- Under any configuration, the instruction a word decodes to packs to the word's 26 bits. -/
@[simp] theorem low_decode (c : Config) (w : Word) : (decode c w).low = low26 w := by
  unfold decode
  split
  · rfl
  split
  · exact low_operandsOf .register w
  split
  · rfl
  split
  · rfl
  split
  · exact low_operandsOf c.classLoadHigh w
  split
  · exact low_operandsOf .immediate w
  · exact low_operandsOf _ w

/-- Settles O7: the instruction's slot and bits are the word's (`slot_decode`, `low_decode`), and they make up the word. -/
theorem encodeOfDecodeIsIdentity : Obligations.EncodeOfDecodeIsIdentity := by
  intro c w
  rw [encode, slot_decode, low_decode, opcodeOf_append_low26]

/-- Settles O5: four bytes are a word, and `decode_wf` says what every word decodes to. -/
theorem everyWordDecodes : Obligations.EveryWordDecodes := by
  intro c bs hc
  match bs with
  | b0 :: b1 :: b2 :: b3 :: rest =>
    refine ⟨fun _ => ⟨_, decodeBytes_four c b0 b1 b2 b3 rest, decode_wf hc _⟩, fun h => ?_⟩
    simp only [List.length_cons] at h
    omega
  | [] | [_] | [_, _] | [_, _, _] => exact ⟨fun h => absurd h (by simp), fun _ => rfl⟩

/-! ## Extraction: a spec is a field's place in the word (R90, R91) -/

/-- R90: a spec with the mask of `n` bits from bit `lo` up and the shift `lo` extracts those bits. -/
theorem extract_eq_extractLsb' {spec : ArgumentSpec} {lo n : Nat}
    (hmask : spec.mask = (BitVec.allOnes n).setWidth 32 <<< lo) (hshift : spec.shift.toNat = lo) (w : Word) :
    extract w spec = (w.extractLsb' lo n).setWidth 32 := by
  apply BitVec.eq_of_getLsbD_eq
  intro i hi
  rw [extract, BitVec.ushiftRight_eq', hshift, hmask]
  simp only [BitVec.getLsbD_ushiftRight, BitVec.getLsbD_and, BitVec.getLsbD_shiftLeft, BitVec.getLsbD_setWidth,
    BitVec.getLsbD_allOnes, BitVec.getLsbD_extractLsb', Nat.add_sub_cancel_left]
  by_cases h : lo + i < 32
  · simp [hi, h, Bool.and_comm]
  · simp [h, BitVec.getLsbD_of_ge w (lo + i) (Nat.le_of_not_lt h)]

theorem setWidth_and_signBit_ne_zero_iff {n : Nat} (hle : n ≤ 32) (v : BitVec n) :
    v.setWidth 32 &&& 1#32 <<< (n - 1) ≠ 0#32 ↔ v.msb = true := by
  have hlt : n - 1 < 32 := by omega
  have hbit : (v.setWidth 32).getLsbD (n - 1) = v.msb := by
    rw [BitVec.getLsbD_setWidth, decide_eq_true hlt, Bool.true_and, BitVec.msb_eq_getLsbD_last]
  have hne : BitVec.twoPow 32 (n - 1) ≠ 0#32 := by
    rw [Ne, ← BitVec.toNat_inj, BitVec.toNat_twoPow_of_lt hlt]
    exact (Nat.two_pow_pos _).ne'
  rw [← BitVec.twoPow_eq, BitVec.and_twoPow, hbit]
  split
  next h => exact iff_of_true hne h
  next h => exact iff_of_false (fun h0 => h0 rfl) h

/-- R91: a spec with the sign bit `n - 1` and the pattern of all ones from bit `n` up sign-extends an `n`-bit field. -/
theorem signExtend_setWidth {spec : ArgumentSpec} {n : Nat} (hle : n ≤ 32)
    (hsign : spec.signBitMask = 1#32 <<< (n - 1)) (hpattern : spec.signExtendPattern = 0xFFFFFFFF#32 <<< n)
    (v : BitVec n) : signExtend (v.setWidth 32) spec = v.signExtend 32 := by
  have htest := hsign ▸ setWidth_and_signBit_ne_zero_iff hle v
  have hones : spec.signExtendPattern = BitVec.allOnes 32 <<< n := hpattern
  by_cases hmsb : v.msb = true
  · rw [signExtend, if_pos (htest.mpr hmsb), hones]
    apply BitVec.eq_of_getLsbD_eq
    intro i hi
    rw [BitVec.getLsbD_or, BitVec.getLsbD_signExtend, BitVec.getLsbD_setWidth, BitVec.getLsbD_shiftLeft,
      BitVec.getLsbD_allOnes]
    by_cases h : i < n
    · simp [hi, h]
    · simp [hi, h, hmsb, Nat.lt_of_le_of_lt (Nat.sub_le i n) hi]
  · rw [signExtend, if_neg (mt htest.mp hmsb),
      BitVec.signExtend_eq_setWidth_of_msb_false (Bool.not_eq_true _ ▸ hmsb)]

/-- R95: extraction and sign extension together, of a field in the low `n` bits. -/
theorem field_eq_signExtend {spec : ArgumentSpec} {n : Nat} (hle : n ≤ 32)
    (hmask : spec.mask = (BitVec.allOnes n).setWidth 32 <<< 0) (hshift : spec.shift.toNat = 0)
    (hsign : spec.signBitMask = 1#32 <<< (n - 1)) (hpattern : spec.signExtendPattern = 0xFFFFFFFF#32 <<< n)
    (w : Word) : field w spec = (w.extractLsb' 0 n).signExtend 32 := by
  rw [field, extract_eq_extractLsb' hmask hshift, signExtend_setWidth hle hsign hpattern]

@[simp] theorem extract_empty (w : Word) : extract w specEmpty = 0#32 := by
  simp [extract, specEmpty]

@[simp] theorem field_empty (w : Word) : field w specEmpty = 0#32 := by
  simp [field, signExtend]

/-- Settles O1: the mask of the empty spec leaves nothing of the word (`extract_empty`, `field_empty`). -/
theorem emptySpecYieldsZero : Obligations.EmptySpecYieldsZero :=
  ⟨fun w => ⟨extract_empty w, field_empty w⟩, rfl, rfl, rfl, rfl, rfl, rfl, rfl, rfl⟩

theorem extract_opcode (w : Word) : extract w specOpcode = (opcodeOf w).setWidth 32 :=
  extract_eq_extractLsb' (by decide) (by decide) w

theorem extract_rd (w : Word) : extract w specRd = (rdOf w).setWidth 32 :=
  extract_eq_extractLsb' (by decide) (by decide) w

theorem extract_rs (w : Word) : extract w specRs = (rsOf w).setWidth 32 :=
  extract_eq_extractLsb' (by decide) (by decide) w

theorem extract_rb (w : Word) : extract w specRb = (rbOf w).setWidth 32 :=
  extract_eq_extractLsb' (by decide) (by decide) w

theorem field_imm11 (w : Word) : field w specImm11 = (imm11Of w).signExtend 32 :=
  field_eq_signExtend (by decide) (by decide) (by decide) (by decide) (by decide) w

theorem field_imm16 (w : Word) : field w specImm16 = (imm16Of w).signExtend 32 :=
  field_eq_signExtend (by decide) (by decide) (by decide) (by decide) (by decide) w

theorem field_imm26 (w : Word) : field w specImm26 = (low26 w).signExtend 32 :=
  field_eq_signExtend (by decide) (by decide) (by decide) (by decide) (by decide) w

/-- R66: the Invalid class's spec takes the whole word and extends nothing. -/
theorem field_word (w : Word) : field w specWord = w := by
  have hraw : extract w specWord = w := by
    rw [extract_eq_extractLsb' (lo := 0) (n := 32) (by decide) (by decide), BitVec.setWidth_eq, BitVec.extractLsb'_eq_self]
  rw [field, hraw, signExtend, specWord, BitVec.and_zero, if_neg (fun h => h rfl)]

/-! ## The record is the operands of the word (R120, R128) -/

theorem extract_destinationSpecOf (k : InstructionClass) (w : Word) :
    extract w (destinationSpecOf k) = (operandsOf k w).rd.setWidth 32 := by
  cases k with
  | register | immediate => exact extract_rd w
  | jump | invalid => exact extract_empty w

theorem extract_sourceSpecOf (k : InstructionClass) (w : Word) :
    extract w (sourceSpecOf k) = (operandsOf k w).rs.setWidth 32 := by
  cases k with
  | register | immediate => exact extract_rs w
  | jump | invalid => exact extract_empty w

theorem extract_baseSpecOf (k : InstructionClass) (w : Word) :
    extract w (baseSpecOf k) = (operandsOf k w).rb.setWidth 32 := by
  cases k with
  | register => exact extract_rb w
  | immediate | jump | invalid => exact extract_empty w

theorem field_immediateSpecOf (k : InstructionClass) (w : Word) :
    field w (immediateSpecOf k) = (operandsOf k w).imm (opcodeOf w) := by
  cases k with
  | register => exact field_imm11 w
  | immediate => exact field_imm16 w
  | jump => exact field_imm26 w
  | invalid => exact (field_word w).trans (opcodeOf_append_low26 w).symm

/-- R74: the specs of every slot's descriptor are those of its class. -/
theorem Config.optable_specs (c : Config) (o : Slot) :
    (c.optable o).destinationSpec = destinationSpecOf (c.optable o).cls ∧
    (c.optable o).sourceSpec = sourceSpecOf (c.optable o).cls ∧
    (c.optable o).baseSpec = baseSpecOf (c.optable o).cls ∧
    (c.optable o).immediateSpec = immediateSpecOf (c.optable o).cls := by
  rcases c.optable_cases o with h | ⟨m, k, h⟩ <;> rw [h] <;> exact ⟨rfl, rfl, rfl, rfl⟩

theorem toNat_extract_opcode_lt (w : Word) : (extract w specOpcode).toNat < 64 := by
  have := (opcodeOf w).isLt
  rw [extract_opcode, BitVec.toNat_setWidth]
  omega

/-- R129: the decoder's lookup is of a slot, the word's own. -/
theorem lookup_extract_opcode (c : Config) (w : Word) :
    lookup c ((extract w specOpcode).setWidth 8) = c.optable (opcodeOf w) := by
  have hlt : ((extract w specOpcode).setWidth 8).toNat < 64 := by
    have := toNat_extract_opcode_lt w
    rw [BitVec.toNat_setWidth]
    omega
  rw [lookup, if_pos hlt, extract_opcode, BitVec.setWidth_setWidth_of_le _ (by decide),
    BitVec.setWidth_setWidth_of_le _ (by decide), BitVec.setWidth_eq]

/-- The algorithm of R120 gives every word the record that R128 gives the operands of its slot's class. -/
theorem decodeRecord_eq_dwordRecord (c : Config) (w : Word) :
    decodeRecord c w = dwordRecord c (opcodeOf w) (operandsOf (c.optable (opcodeOf w)).cls w) := by
  obtain ⟨hrd, hrs, hrb, himm⟩ := c.optable_specs (opcodeOf w)
  have hfield := field_immediateSpecOf (c.optable (opcodeOf w)).cls w
  rw [field] at hfield
  simp (disch := decide) only [decodeRecord, lookup_extract_opcode, if_neg (Nat.not_le.mpr (toNat_extract_opcode_lt w)),
    hrd, hrs, hrb, himm, extract_destinationSpecOf, extract_sourceSpecOf, extract_baseSpecOf, hfield,
    BitVec.setWidth_setWidth_of_le, dwordRecord]

theorem decodeRecord_cls (c : Config) (w : Word) : (decodeRecord c w).cls = (c.optable (opcodeOf w)).cls := by
  rw [decodeRecord_eq_dwordRecord, dwordRecord]

theorem decodeRecord_opcodeId (c : Config) (w : Word) :
    (decodeRecord c w).opcodeId = (c.optable (opcodeOf w)).opcodeId := by
  rw [decodeRecord_eq_dwordRecord, dwordRecord]

theorem decodeRecord_imm (c : Config) (w : Word) :
    (decodeRecord c w).imm = (operandsOf (decodeRecord c w).cls w).imm (opcodeOf w) := by
  rw [decodeRecord_cls, decodeRecord_eq_dwordRecord, dwordRecord]

theorem decodeRecord_imm_of_invalid {c : Config} {w : Word} (h : (decodeRecord c w).cls = .invalid) :
    (decodeRecord c w).imm = w := by
  rw [decodeRecord_imm, h]
  exact opcodeOf_append_low26 w

/-- Sign extension keeps the number, so it keeps the range of the field. -/
theorem toInt_of_eq_signExtend {n : Nat} {v : BitVec n} {x : Word} (hle : n ≤ 32) (h : x = v.signExtend 32) :
    x.toInt = v.toInt ∧ -2 ^ (n - 1) ≤ x.toInt ∧ x.toInt ≤ 2 ^ (n - 1) - 1 := by
  have hval : x.toInt = v.toInt := by rw [h, BitVec.toInt_signExtend_of_le hle]
  exact ⟨hval, hval ▸ BitVec.le_toInt v, hval ▸ Int.le_sub_one_of_lt BitVec.toInt_lt⟩

/-- Settles O3: the immediate is the one of the operands of the record's class (`decodeRecord_imm`). -/
theorem immediateOfEachClass : Obligations.ImmediateOfEachClass := by
  intro c w
  have himm := decodeRecord_imm c w
  split
  next h => exact toInt_of_eq_signExtend (v := imm11Of w) (by decide) (by rw [himm, h]; rfl)
  next h => exact toInt_of_eq_signExtend (v := imm16Of w) (by decide) (by rw [himm, h]; rfl)
  next h => exact toInt_of_eq_signExtend (v := low26 w) (by decide) (by rw [himm, h]; rfl)
  next h => exact decodeRecord_imm_of_invalid h

/-! ## The record determines the word (R73) -/

theorem setWidth_injective_of_le {m n : Nat} (h : m ≤ n) {a b : BitVec m} (hab : a.setWidth n = b.setWidth n) : a = b := by
  rw [← BitVec.setWidth_eq a, ← BitVec.setWidth_setWidth_of_le a h, hab, BitVec.setWidth_setWidth_of_le b h,
    BitVec.setWidth_eq]

theorem signExtend_injective_of_le {m n : Nat} (h : m ≤ n) {a b : BitVec m} (hab : a.signExtend n = b.signExtend n) :
    a = b := by
  rw [← BitVec.toInt_inj, ← BitVec.toInt_signExtend_of_le h, hab, BitVec.toInt_signExtend_of_le h]

/-- A record of class `k` and slot `o` shows every operand of its word. -/
theorem operandsOf_eq_of_fields {k : InstructionClass} {o : Slot} {w w' : Word}
    (hrd : (operandsOf k w).rd = (operandsOf k w').rd) (hrs : (operandsOf k w).rs = (operandsOf k w').rs)
    (hrb : (operandsOf k w).rb = (operandsOf k w').rb)
    (himm : (operandsOf k w).imm o = (operandsOf k w').imm o) : operandsOf k w = operandsOf k w' := by
  cases k with
  | register =>
    have himm11 : imm11Of w = imm11Of w' := signExtend_injective_of_le (by decide) himm
    exact (Operands.register.injEq ..).mpr ⟨hrd, hrs, hrb, himm11⟩
  | immediate =>
    have himm16 : imm16Of w = imm16Of w' := signExtend_injective_of_le (by decide) himm
    exact (Operands.immediate.injEq ..).mpr ⟨hrd, hrs, himm16⟩
  | jump =>
    have himm26 : low26 w = low26 w' := signExtend_injective_of_le (by decide) himm
    exact congrArg Operands.jump himm26
  | invalid =>
    have hlow : low26 w = low26 w' := by simpa [operandsOf, Operands.imm] using congrArg low26 himm
    exact congrArg Operands.raw hlow

/-- A record of a valid class names its slot (R112): only the sentinel has no number, and its class is Invalid. -/
theorem decodeRecord_opcodeId_of_valid {c : Config} {w : Word} (h : (decodeRecord c w).cls ≠ .invalid) :
    (decodeRecord c w).opcodeId = some (opcodeOf w) := by
  rw [decodeRecord_cls] at h
  rw [decodeRecord_opcodeId]
  rcases c.optable_cases (opcodeOf w) with hdesc | ⟨m, k, hdesc⟩ <;> rw [hdesc] at h ⊢
  · exact absurd rfl h
  · rfl

/-- Settles O8: an Invalid record's immediate is the word; any other record names the slot, and its fields give back the
operands (`operandsOf_eq_of_fields`), so slot and 26 bits agree. -/
theorem differentWordsDifferentRecords : Obligations.DifferentWordsDifferentRecords := by
  intro c w w' h
  by_cases hinv : (decodeRecord c w).cls = .invalid
  · rw [← decodeRecord_imm_of_invalid hinv, h, decodeRecord_imm_of_invalid (h ▸ hinv)]
  have hslot : opcodeOf w = opcodeOf w' := by
    have hid := decodeRecord_opcodeId_of_valid hinv
    rw [h, decodeRecord_opcodeId_of_valid (h ▸ hinv)] at hid
    exact (Option.some.inj hid).symm
  rw [decodeRecord_eq_dwordRecord, decodeRecord_eq_dwordRecord, ← hslot] at h
  have hops := operandsOf_eq_of_fields
    (setWidth_injective_of_le (by decide) (congrArg DecodedInstruction.rd h))
    (setWidth_injective_of_le (by decide) (congrArg DecodedInstruction.rs h))
    (setWidth_injective_of_le (by decide) (congrArg DecodedInstruction.rb h))
    (congrArg DecodedInstruction.imm h)
  have hlow : low26 w = low26 w' := by simpa using congrArg Operands.low hops
  rw [← opcodeOf_append_low26 w, hslot, hlow, opcodeOf_append_low26]

end Sys2Proof

/-! # The bitfield extractor

The statement of spec/40_bitfield_extractor.md: sign extension of a raw field subtracts `2 ^ n` when the sign bit is set, and
the mask brings the field back (R93). -/

namespace Sys2Proof

/-- The two's complement number of a field, by its sign bit. -/
theorem toInt_eq_ite_signBit {n : Nat} (v : BitVec n) :
    v.toInt = if 2 ^ (n - 1) ≤ v.toNat then (v.toNat : Int) - (2 : Int) ^ n else (v.toNat : Int) := by
  simp [BitVec.toInt_eq_msb_cond, BitVec.msb_eq_decide]

/-- The low `n` bits of a sign-extended field are the field. -/
theorem signExtend_and_allOnes {n : Nat} (v : BitVec n) :
    v.signExtend 32 &&& (BitVec.allOnes n).setWidth 32 = v.setWidth 32 := by
  apply BitVec.eq_of_getLsbD_eq
  intro i hi
  rw [BitVec.getLsbD_and, BitVec.getLsbD_signExtend, BitVec.getLsbD_setWidth, BitVec.getLsbD_setWidth,
    BitVec.getLsbD_allOnes]
  by_cases h : i < n
  · simp [hi, h]
  · simp [h, BitVec.getLsbD_of_ge v i (Nat.le_of_not_lt h)]

/-- A shifted mask with the number `2 ^ n - 1` is `n` ones in the low bits. -/
theorem eq_setWidth_allOnes_of_toNat {n : Nat} (hle : n ≤ 32) {mask : Word} (h : mask.toNat = 2 ^ n - 1) :
    mask = (BitVec.allOnes n).setWidth 32 := by
  rw [← BitVec.toNat_inj, BitVec.toNat_setWidth_of_le hle, BitVec.toNat_allOnes, h]

/-- Settles O2: a raw value below `2 ^ n` is an `n`-bit field widened, which the spec sign-extends (`signExtend_setWidth`);
its number and its low bits are then those of the field. -/
theorem signExtensionRoundTrip : Obligations.SignExtensionRoundTrip := by
  refine ⟨fun n spec raw _ hle hsign hpattern hmask hraw => ?_, by decide⟩
  obtain ⟨v, rfl⟩ : ∃ v : BitVec n, raw = v.setWidth 32 :=
    ⟨raw.setWidth n, by
      rw [← BitVec.toNat_inj, BitVec.toNat_setWidth_of_le hle, BitVec.toNat_setWidth, Nat.mod_eq_of_lt hraw]⟩
  rw [signExtend_setWidth hle hsign hpattern, eq_setWidth_allOnes_of_toNat hle hmask, BitVec.toNat_setWidth_of_le hle,
    BitVec.toInt_signExtend_of_le hle]
  exact ⟨toInt_eq_ite_signBit v, signExtend_and_allOnes v⟩

end Sys2Proof

/-! # The opcode table

The statements of spec/41_opcode_table.md: what every slot of a well-formed table holds, the lookup outside the table, the words
of the test vectors, and that no step changes the table. -/

namespace Sys2Proof

/-! ## The open entries of a well-formed configuration (R7, R112) -/

theorem mnemonicOk_iff {m : String} : mnemonicOk m = true ↔ 1 ≤ m.length ∧ m.length ≤ 6 := by
  simp [mnemonicOk]

theorem Config.wf_mnemonics {c : Config} (h : c.wf = true) :
    mnemonicOk c.mnemLoadHigh = true ∧ mnemonicOk c.mnemLoadAddr = true := by
  simp only [Config.wf, Bool.and_eq_true] at h
  tauto

theorem Config.wf_other {c : Config} (h : c.wf = true) (o : Slot) : (c.other[o.toNat]'o.isLt).ok = true := by
  simp only [Config.wf, Bool.and_eq_true, List.all_eq_true] at h
  obtain ⟨-, hother⟩ := h
  exact hother _ (Vector.mem_toList_iff.mpr (Vector.getElem_mem o.isLt))

/-! ## What a slot holds -/

theorem Config.optable_3F_of_named {c : Config} (h : c.slot3fNamed = true) :
    c.optable 0x3F#6 = descriptorOf 0x3F#6 "unk3F" .invalid := by
  rw [Config.optable_3F, if_pos h]

/-- R109: a slot the spec does not name holds its entry of the open part. -/
theorem Config.optable_of_open {c : Config} {o : Slot} (h00 : o ≠ 0x00#6) (h21 : o ≠ 0x21#6) (h3F : o ≠ 0x3F#6)
    (hHigh : o ≠ c.opcLoadHigh) (hAddr : o ≠ c.opcLoadAddr) :
    c.optable o = (c.other[o.toNat]'o.isLt).descriptor o := by
  simp only [Config.optable, h00, h21, h3F, hHigh, hAddr, if_false]

theorem SlotEntry.descriptor_cases {e : SlotEntry} (he : e.ok = true) (o : Slot) :
    e.descriptor o = Sys2Proof.sentinel ∨ ∃ m k, mnemonicOk m = true ∧ e.descriptor o = descriptorOf o m k := by
  cases e with
  | sentinel => exact .inl rfl
  | named m k => exact .inr ⟨m, k, he, rfl⟩

/-- R112: under a well-formed configuration a slot's own descriptor has a mnemonic of 1 to 6 characters. -/
theorem Config.optable_cases_of_wf {c : Config} (hc : c.wf = true) (o : Slot) :
    c.optable o = sentinel ∨ ∃ m k, mnemonicOk m = true ∧ c.optable o = descriptorOf o m k := by
  obtain ⟨hmHigh, hmAddr⟩ := Config.wf_mnemonics hc
  rcases eq_or_ne o 0x00#6 with rfl | h00
  · exact .inr ⟨_, _, by decide, c.optable_jmp⟩
  rcases eq_or_ne o 0x21#6 with rfl | h21
  · exact .inr ⟨_, _, by decide, c.optable_lw⟩
  rcases eq_or_ne o 0x3F#6 with rfl | h3F
  · by_cases hnamed : c.slot3fNamed = true
    · exact .inr ⟨_, _, by decide, Config.optable_3F_of_named hnamed⟩
    · exact .inl (Config.optable_3F_of_not_named hnamed)
  rcases eq_or_ne o c.opcLoadHigh with rfl | hHigh
  · exact .inr ⟨_, _, hmHigh, Config.optable_loadHigh hc⟩
  rcases eq_or_ne o c.opcLoadAddr with rfl | hAddr
  · exact .inr ⟨_, _, hmAddr, Config.optable_loadAddr hc⟩
  rw [Config.optable_of_open h00 h21 h3F hHigh hAddr]
  exact SlotEntry.descriptor_cases (Config.wf_other hc o) o

/-- R112: a number in the table stands in its own slot. -/
theorem Config.eq_of_optable_opcodeId {c : Config} {o p : Slot} (h : (c.optable o).opcodeId = some p) : o = p := by
  rcases c.optable_opcodeId o with hs | hs <;> rw [hs] at h
  · cases h
  · exact Option.some.inj h

/-- R112: the five named slots are pairwise different. -/
theorem Config.named_slots_nodup {c : Config} (h : c.wf = true) :
    [0x00#6, 0x21#6, 0x3F#6, c.opcLoadHigh, c.opcLoadAddr].Nodup := by
  obtain ⟨hHigh00, hHigh21, hHigh3F⟩ := Config.wf_loadHigh h
  obtain ⟨hAddr00, hAddr21, hAddr3F⟩ := Config.wf_loadAddr h
  simp [hHigh00.symm, hHigh21.symm, hHigh3F.symm, hAddr00.symm, hAddr21.symm, hAddr3F.symm, Config.wf_kinds_differ h]

/-- Settles O10: `optable_cases_of_wf` for every slot, one equation for each named slot, and `eq_of_optable_opcodeId` for the
numbers of the kinds. -/
theorem opcodeTableWellFormed : Obligations.OpcodeTableWellFormed := by
  refine fun c hc => ⟨fun o => ?_, c.optable_jmp, c.optable_lw, Config.optable_3F_of_named,
    fun h => Config.optable_3F_of_not_named (ne_true_of_eq_false h), Config.optable_loadHigh hc,
    Config.optable_loadAddr hc, Config.named_slots_nodup hc,
    fun o => ⟨Config.eq_of_optable_opcodeId, Config.eq_of_optable_opcodeId⟩⟩
  refine (Config.optable_cases_of_wf hc o).imp_right ?_
  rintro ⟨m, k, hm, hdesc⟩
  obtain ⟨hpos, hle⟩ := mnemonicOk_iff.mp hm
  rw [hdesc]
  exact ⟨rfl, hpos, hle, rfl, rfl, rfl, rfl⟩

/-! ## The lookup and the words of the test vectors -/

theorem lookup_of_ge {o : BitVec 8} (c : Config) (h : 64 ≤ o.toNat) : lookup c o = sentinel :=
  if_neg (Nat.not_lt.mpr h)

/-- Settles O11: `lookup_of_ge`, and the opcode's six bits (`toNat_extract_opcode_lt`). -/
theorem lookupOutOfRangeIsSentinel : Obligations.LookupOutOfRangeIsSentinel := by
  refine fun c => ⟨fun o h => ?_, fun w => Nat.le_of_lt_succ (toNat_extract_opcode_lt w)⟩
  rw [lookup_of_ge c h]
  exact ⟨rfl, rfl, rfl⟩

theorem decode_eq_of_encode_eq {c : Config} {i : Instr} {w : Word} (hc : c.wf = true) (hi : i.wf c = true)
    (h : encode c i = w) : decode c w = i :=
  h ▸ decodeOfEncodeIsIdentity c i hc hi

/-- Settles O12: each word is the encoding of its instruction, and decoding undoes encoding. -/
theorem decodesSpecWords : Obligations.DecodesSpecWords := by
  refine ⟨?_, ?_, ?_, ?_, ?_, ?_⟩ <;> exact decode_eq_of_encode_eq refcfg_wf (by decide) (by decide)

end Sys2Proof

namespace Sys2Proof.Machine

/-! ## The table never changes (R103) -/

theorem runCall_cfg {s t : State} (h : runCall s = .next t) : t.cfg = s.cfg := by
  rcases runCall_next h with ⟨_, _, _, hm⟩ | ⟨_, hr⟩
  · obtain ⟨_, rfl⟩ := takeMemReadFail_next hm
    rfl
  · obtain ⟨_, _, _, rfl⟩ := retire_next hr
    rfl

theorem step_cfg {s t : State} (h : step s = .next t) : t.cfg = s.cfg := by
  rcases step_next h with ⟨_, rfl⟩ | ⟨rest, _, rfl⟩ | ⟨a, b, rest, _, rfl⟩ | ⟨c, rest, _, hr⟩
  · rfl
  · rfl
  · rfl
  · rw [runCall_cfg hr, beginCall_cfg]

/-- Settles O54: every lookup reads the configuration alone, which no step changes (`step_cfg`). -/
theorem opcodeTableNeverChanges : Obligations.OpcodeTableNeverChanges :=
  fun _ _ h => ⟨step_cfg h, fun o => congrArg (lookup · o) (step_cfg h)⟩

end Sys2Proof.Machine


/-! # The decoder

The statements of spec/42_decoder.md: the records of R123 to R128 are those of the algorithm of R120, a Step is its pseudocode
(R121) whose record depends on the word alone (R122), and what each instruction leaves when it completes. -/

namespace Sys2Proof

/-! ## The record of the decoded instruction (R120, R123 to R128) -/

/-- R107, of any configuration: load-high's slot is looked up before load-address's. -/
theorem Config.optable_of_eq_loadHigh {c : Config} {o : Slot} (h00 : o ≠ 0x00#6) (h21 : o ≠ 0x21#6) (h3F : o ≠ 0x3F#6)
    (hHigh : o = c.opcLoadHigh) : c.optable o = descriptorOf o c.mnemLoadHigh c.classLoadHigh := by
  rw [Config.optable, if_neg h00, if_neg h21, if_neg h3F, if_pos hHigh]

/-- R108, of any configuration. -/
theorem Config.optable_of_eq_loadAddr {c : Config} {o : Slot} (h00 : o ≠ 0x00#6) (h21 : o ≠ 0x21#6) (h3F : o ≠ 0x3F#6)
    (hHigh : o ≠ c.opcLoadHigh) (hAddr : o = c.opcLoadAddr) :
    c.optable o = descriptorOf o c.mnemLoadAddr .immediate := by
  rw [Config.optable, if_neg h00, if_neg h21, if_neg h3F, if_neg hHigh, if_pos hAddr]

/-- The record of a slot with a descriptor of its own has the slot's number and the descriptor's class. -/
theorem dwordRecord_of_descriptorOf {c : Config} {o : Slot} {m : String} {k : InstructionClass}
    (h : c.optable o = descriptorOf o m k) (ops : Operands) :
    dwordRecord c o ops = { dwordRecord c o ops with opcodeId := some o, cls := k } := by
  rw [dwordRecord, h]
  rfl

/-- The record R120 makes of a word of a slot with a descriptor of its own. -/
theorem decodeRecord_of_descriptorOf {c : Config} {w : Word} {m : String} {k : InstructionClass}
    (h : c.optable (opcodeOf w) = descriptorOf (opcodeOf w) m k) :
    decodeRecord c w = { dwordRecord c (opcodeOf w) (operandsOf k w) with opcodeId := some (opcodeOf w), cls := k } := by
  have hk : (c.optable (opcodeOf w)).cls = k := by rw [h]; rfl
  rw [decodeRecord_eq_dwordRecord, hk]
  exact dwordRecord_of_descriptorOf h _

/-- Each branch of `decode` names the slot's descriptor, and so the record the algorithm makes. -/
theorem record_decode (c : Config) (w : Word) : (decode c w).record c = decodeRecord c w := by
  unfold decode
  split
  next h =>
    rw [decodeRecord_of_descriptorOf (h ▸ c.optable_jmp), h]
    rfl
  split
  next h =>
    rw [decodeRecord_of_descriptorOf (h ▸ c.optable_lw), h]
    rfl
  split
  next h =>
    rw [decodeRecord_of_descriptorOf (h.1 ▸ Config.optable_3F_of_named h.2), h.1]
    rfl
  split
  next h3F h =>
    have hnamed : c.slot3fNamed ≠ true := fun hn => h3F ⟨h, hn⟩
    rw [decodeRecord_eq_dwordRecord, h, Config.optable_3F_of_not_named hnamed]
    rfl
  split
  next h00 h21 _ h3F hHigh =>
    rw [decodeRecord_of_descriptorOf (Config.optable_of_eq_loadHigh h00 h21 h3F hHigh), hHigh]
    rfl
  split
  next h00 h21 _ h3F hHigh hAddr =>
    rw [decodeRecord_of_descriptorOf (Config.optable_of_eq_loadAddr h00 h21 h3F hHigh hAddr), hAddr]
    rfl
  · exact (decodeRecord_eq_dwordRecord c w).symm

/-- Settles O9, by `record_decode`. -/
theorem instructionRecordsAreTheAlgorithms : Obligations.InstructionRecordsAreTheAlgorithms :=
  record_decode

/-- R126, of a configuration whose load-high class is known. -/
theorem record_ldhi_of_class {c : Config} {k : InstructionClass} (h : c.classLoadHigh = k) (ops : Operands) :
    (Instr.ldhi ops).record c = { ldhiRecord c ops with cls := k } := by
  rw [← h]
  rfl

/-- R128, of a slot of a valid class: it is not the sentinel's, so the record has the slot's number. -/
theorem record_dword_of_class {c : Config} {o : Slot} {k : InstructionClass} (h : (c.optable o).cls = k)
    (hk : k ≠ .invalid) (ops : Operands) :
    (Instr.dword o ops).record c = { dwordRecord c o ops with opcodeId := some o, cls := k } := by
  subst h
  rcases c.optable_cases o with hdesc | ⟨m, k, hdesc⟩
  · exact absurd (congrArg OpcodeDescriptor.cls hdesc) hk
  · exact (dwordRecord_of_descriptorOf hdesc ops).trans (by rw [hdesc]; rfl)

/-- R128, of an Invalid slot. -/
theorem record_dword_of_invalid {c : Config} {o : Slot} (h : (c.optable o).cls = .invalid) (ops : Operands) :
    (Instr.dword o ops).record c = { dwordRecord c o ops with cls := .invalid } := by
  rw [← h]
  rfl

/-- R128: the operands are those of the slot's class, and the slot is neither kind's. -/
theorem Instr.wf_dword_slot {c : Config} {o : Slot} {ops : Operands} (h : (Instr.dword o ops).wf c = true) :
    ops.fits (c.optable o).cls = true ∧ o ≠ c.opcLoadHigh ∧ o ≠ c.opcLoadAddr := by
  rw [Instr.wf, Bool.and_eq_true, otherSlot_iff] at h
  obtain ⟨⟨-, -, -, hHigh, hAddr⟩, hfits⟩ := h
  exact ⟨hfits, hHigh, hAddr⟩

end Sys2Proof

namespace Sys2Proof.Machine

/-! ## A Step is its pseudocode (R121) -/

/-- R25, R121: the start of a Step as one state update. -/
theorem beginCall_eq (c : Call) (rest : List Input) (s : State) :
    beginCall c rest s = { s with
      inputs := rest
      call := c
      created := true
      x := if s.created then s.x else initialShadow s.cfg
      trace := [.readMemory c.addr 4] } := by
  cases h : s.created <;> simp [beginCall, ensureCreated, h]

/-- Settles O37: a status of 0 runs the fetched instruction (`runCall_of_zero_status`) on the state of `beginCall_eq`. -/
theorem stepRunsTheDecodedInstruction : Obligations.StepRunsTheDecodedInstruction := by
  rintro s c rest _ hi hs rfl
  rw [step_of_call hi, runCall_of_zero_status (by rwa [beginCall_call]), ← beginCall_eq]
  simp only [beginCall_cfg, beginCall_image, beginCall_call]

/-- Settles O38: `runCall_cases` is the pseudocode's case split on the status, and `record_decode` puts the algorithm's record
for the instruction's. -/
theorem stepRefinesPseudocode : Obligations.StepRefinesPseudocode := by
  intro s c rest hi x₀
  have hcases := runCall_cases (beginCall c rest s)
  simp only [beginCall_call, beginCall_cfg, beginCall_image, record_decode] at hcases
  rw [step_of_call hi]
  rcases hcases with ⟨hs, hr⟩ | ⟨status, hs, h0, hr⟩ | ⟨hs, hr⟩ <;> rw [hs]
  · exact hr
  · rw [hr, beginCall_eq]
    exact (if_pos h0).symm
  · rw [hr, beginCall_eq]
    exact (if_neg (not_not_intro rfl)).symm

/-- R120, R130: a completed Step puts out the record the algorithm makes of the fetched word. -/
theorem runCall_out_of_zero_status {s t : State} (hs : s.call.status = some 0) (h : runCall s = .next t) :
    ∃ text, t.out =
      .completed (decodeRecord s.cfg (wordOfBytes (Vector.ofFn fun i => fetchByte s.image s.call i))) text 4 := by
  rw [runCall_of_zero_status hs, exec_eq_retire, record_decode] at h
  obtain ⟨text, _, _, rfl⟩ := retire_next h
  exact ⟨text, rfl⟩

/-- Settles O51: the record of `runCall_out_of_zero_status` is made of the configuration and the bytes alone. -/
theorem recordDoesNotDependOnShadow : Obligations.RecordDoesNotDependOnShadow := by
  intro s s' t t' c c' rest rest' hi hi' hcfg hs hs' hbytes h h'
  rw [step_of_call hi] at h
  rw [step_of_call hi'] at h'
  obtain ⟨text, hout⟩ := runCall_out_of_zero_status (by rwa [beginCall_call]) h
  obtain ⟨text', hout'⟩ := runCall_out_of_zero_status (by rwa [beginCall_call]) h'
  simp only [beginCall_cfg, beginCall_image, beginCall_call, hcfg, hbytes] at hout hout'
  exact ⟨_, text, text', hout, hout'⟩

/-! ## The shadow after a record, by its number and fields (R150 to R155) -/

theorem writeX_writeX_same (x : Shadow) (i : RegIdx) (v v' : Word) : writeX (writeX x i v) i v' = writeX x i v' :=
  Vector.set_set ..

section
variable {c : Config} {x : Shadow} {rec : DecodedInstruction} {rd rs : RegIdx}

theorem update_of_other_opcode {o : Slot} (hid : rec.opcodeId = some o) (hHigh : o ≠ c.opcLoadHigh)
    (hAddr : o ≠ c.opcLoadAddr) : update c x rec = writeX x 0#5 0#32 :=
  update_of_no_kind (by simpa [hid] using hHigh) (by simpa [hid] using hAddr)

theorem update_of_load_high_fields (hid : rec.opcodeId = some c.opcLoadHigh) (hrd : rec.rd = rd.setWidth 16)
    (hrs : rec.rs = rs.setWidth 16) :
    update c x rec = writeX (writeX x rd ((readX x rs + rec.imm) <<< 16)) 0#5 0#32 := by
  rw [update_of_load_high hid, hrd, hrs, regOf_setWidth, regOf_setWidth, loadHighValue]

/-- A load-high with no destination field writes register 0, and the forced zero overwrites it. -/
theorem update_of_load_high_zero (hid : rec.opcodeId = some c.opcLoadHigh) (hrd : rec.rd = 0#16) :
    update c x rec = writeX x 0#5 0#32 := by
  rw [update_of_load_high hid, hrd, regOf_zero, writeX_writeX_same]

end

/-- R75: the mask of the Immediate class recovers the field of a load-address, unsigned. -/
theorem unsignedImm_ldaRecord {c : Config} (hc : c.wf = true) (rd rs : RegIdx) (imm : BitVec 16) :
    unsignedImm (ldaRecord c rd rs imm) = imm.setWidth 32 := by
  rw [unsignedImm, ldaRecord, Config.optable_loadAddr hc]
  exact signExtend_and_allOnes imm

theorem update_ldaRecord {c : Config} (hc : c.wf = true) (x : Shadow) (rd rs : RegIdx) (imm : BitVec 16) :
    update c x (ldaRecord c rd rs imm) = writeX (writeX x rd (readX x rs ^^^ imm.setWidth 32)) 0#5 0#32 := by
  rw [update_of_load_addr rfl (Config.wf_kinds_differ hc), unsignedImm_ldaRecord hc, loadAddrValue, ldaRecord,
    regOf_setWidth, regOf_setWidth]

/-- R174, R218: the register a kind wrote, as the Formatter reads it after the forced zero. -/
theorem readX_after_forced_zero (x : Shadow) (rd : RegIdx) (v : Word) :
    readX (writeX (writeX x rd v) 0#5 0#32) rd = if rd = 0#5 then 0#32 else v := by
  split
  next h => rw [h, readX_writeX_same]
  next h => rw [readX_writeX_other _ _ h, readX_writeX_same]

/-! ## The line of a record, by its fields (R172 to R177) -/

theorem toNat_setWidth_regIdx (r : RegIdx) : (r.setWidth 16).toNat = r.toNat :=
  BitVec.toNat_setWidth_of_le (by decide)

section
variable {rec : DecodedInstruction} {rd rs rb : RegIdx} {m : String}

theorem registerText_of_fields {imm : BitVec 11} (hm : rec.desc.mnemonic = m) (hrd : rec.rd = rd.setWidth 16)
    (hrs : rec.rs = rs.setWidth 16) (hrb : rec.rb = rb.setWidth 16) (himm : rec.imm = imm.signExtend 32) :
    registerText rec = m ++ " $" ++ decimal rd.toNat ++ ", $" ++ decimal rs.toNat ++ ", $" ++ decimal rb.toNat ++ ", " ++
      signedHex imm.toInt := by
  rw [registerText, hm, hrd, hrs, hrb, himm, BitVec.toInt_signExtend_of_le (by decide)]
  simp only [toNat_setWidth_regIdx]

theorem immediateText_of_fields {imm : BitVec 16} (hm : rec.desc.mnemonic = m) (hrd : rec.rd = rd.setWidth 16)
    (hrs : rec.rs = rs.setWidth 16) (himm : rec.imm = imm.signExtend 32) :
    immediateText rec = m ++ " $" ++ decimal rd.toNat ++ ", $" ++ decimal rs.toNat ++ ", " ++ signedHex imm.toInt := by
  rw [immediateText, hm, hrd, hrs, himm, BitVec.toInt_signExtend_of_le (by decide)]
  simp only [toNat_setWidth_regIdx]

theorem target_signExtend (imm : BitVec 26) (addr : Addr) :
    target (imm.signExtend 32) addr = imm.signExtend 64 * 4#64 + addr := by
  have h : (imm.signExtend 32).signExtend 64 = imm.signExtend 64 := by
    rw [← BitVec.toInt_inj]
    simp only [BitVec.toInt_signExtend_of_le, Nat.reduceLeDiff]
  rw [target, h]

theorem format_of_jump {imm : BitVec 26} (c : Config) (addr : Addr) (x : Shadow) (symbols : List (Addr × SymbolReply))
    (hcls : rec.cls = .jump) (hm : rec.desc.mnemonic = m) (himm : rec.imm = imm.signExtend 32) :
    format c rec addr x symbols =
      withComment (m ++ " $pc+(" ++ hexLower (imm.signExtend 32).toNat ++ "*4)") symbols
        (imm.signExtend 64 * 4#64 + addr) := by
  simp only [format, hcls, jumpText, hm, himm, target_signExtend]

/-- R174: the line of a load-address, on the shadow its update left. -/
theorem format_ldaRecord {c : Config} (hc : c.wf = true) (rd rs : RegIdx) (imm : BitVec 16) (addr : Addr) (x : Shadow)
    (v : Word) (symbols : List (Addr × SymbolReply)) :
    format c (ldaRecord c rd rs imm) addr (writeX (writeX x rd v) 0#5 0#32) symbols =
      withComment (c.mnemLoadAddr ++ " $" ++ decimal rd.toNat ++ ", $" ++ decimal rs.toNat ++ ", " ++ signedHex imm.toInt)
        symbols (if rd = 0#5 then 0#64 else v.setWidth 64) := by
  have hm : (ldaRecord c rd rs imm).desc.mnemonic = c.mnemLoadAddr :=
    congrArg OpcodeDescriptor.mnemonic (Config.optable_loadAddr hc)
  have href : referenceAddress (ldaRecord c rd rs imm) (writeX (writeX x rd v) 0#5 0#32) =
      if rd = 0#5 then 0#64 else v.setWidth 64 := by
    rw [referenceAddress, ldaRecord, regOf_setWidth, readX_after_forced_zero, apply_ite (BitVec.setWidth 64)]
    rfl
  rw [← immediateText_of_fields hm rfl rfl rfl, ← href]
  exact if_pos rfl

end

/-! ## Completion, by the class of the record (R170) -/

section
variable {rec : DecodedInstruction} {s : State} {x' : Shadow}

/-- A line with no callback: the trace stays as it is. -/
theorem retire_of_format_without_calls {text : String} (hx : update s.cfg s.x rec = x')
    (hf : format s.cfg rec s.call.addr x' s.call.symbols = .ok (text, [])) :
    retire rec s = .next { s with x := x', out := .completed rec text 4 } := by
  subst hx
  rw [retire_completes hf, List.append_nil]

theorem retire_of_register {text : String} (hcls : rec.cls = .register) (hx : update s.cfg s.x rec = x')
    (htext : registerText rec = text) : retire rec s = .next { s with x := x', out := .completed rec text 4 } :=
  retire_of_format_without_calls hx (by simp only [format, hcls, htext])

theorem retire_of_immediate {text : String} (hcls : rec.cls = .immediate) (hid : rec.opcodeId ≠ some s.cfg.opcLoadAddr)
    (hx : update s.cfg s.x rec = x') (htext : immediateText rec = text) :
    retire rec s = .next { s with x := x', out := .completed rec text 4 } :=
  retire_of_format_without_calls hx (by simp only [format, hcls, if_neg hid, htext])

theorem retire_of_invalid {text : String} (hcls : rec.cls = .invalid) (hx : update s.cfg s.x rec = x')
    (htext : invalidText rec = text) : retire rec s = .next { s with x := x', out := .completed rec text 4 } :=
  retire_of_format_without_calls hx (by simp only [format, hcls, htext])

/-- R174, R175, R178: a line with a comment, by the host's answer about its address. -/
theorem retire_of_comment {before : String} {a : Addr} (hx : update s.cfg s.x rec = x')
    (hf : format s.cfg rec s.call.addr x' s.call.symbols = withComment before s.call.symbols a) :
    (symbolReply s.call.symbols a = .absent →
      retire rec s = .next { s with
        x := x'
        out := .completed rec (before ++ "\t// " ++ hexLower a.toNat) 4
        trace := s.trace ++ [.symbolExistsAt a] }) ∧
    (∀ form, symbolReply s.call.symbols a = .printed form →
      retire rec s = .next { s with
        x := x'
        out := .completed rec (before ++ "\t// " ++ form) 4
        trace := s.trace ++ [.symbolExistsAt a, .printSymbolAt a] }) := by
  subst hx
  exact ⟨fun h => retire_completes (hf.trans (withComment_absent h)),
    fun _ h => retire_completes (hf.trans (withComment_printed h))⟩

end

/-! ## The named rows (R123 to R125) -/

/-- Settles O18: slot 0 is neither kind's, and the line is `format_of_jump`. -/
theorem jmpCompletes : Obligations.JmpCompletes := by
  intro s imm hc
  obtain ⟨hHigh, -, -⟩ := Config.wf_loadHigh hc
  obtain ⟨hAddr, -, -⟩ := Config.wf_loadAddr hc
  rw [exec_eq_retire]
  exact retire_of_comment (update_of_other_opcode rfl hHigh.symm hAddr.symm) (format_of_jump _ _ _ _ rfl rfl rfl)

/-- Settles O19: slot 0x21 is neither kind's, and the class is Register. -/
theorem lwCompletes : Obligations.LwCompletes := by
  intro s rd rs rb imm hc
  obtain ⟨-, hHigh, -⟩ := Config.wf_loadHigh hc
  obtain ⟨-, hAddr, -⟩ := Config.wf_loadAddr hc
  rw [exec_eq_retire]
  exact retire_of_register rfl (update_of_other_opcode rfl hHigh.symm hAddr.symm)
    (registerText_of_fields rfl rfl rfl rfl rfl)

/-- Settles O20: slot 0x3F is neither kind's, and the class is Invalid. -/
theorem unk3FCompletes : Obligations.Unk3FCompletes := by
  intro s low hc hnamed
  obtain ⟨-, -, hHigh⟩ := Config.wf_loadHigh hc
  obtain ⟨-, -, hAddr⟩ := Config.wf_loadAddr hc
  have hm : (s.cfg.optable 0x3F#6).mnemonic = "unk3F" :=
    congrArg OpcodeDescriptor.mnemonic (Config.optable_3F_of_named hnamed)
  rw [exec_eq_retire, ← hm]
  exact retire_of_invalid rfl (update_of_other_opcode rfl hHigh.symm hAddr.symm) rfl

/-! ## The two kinds (R126, R127) -/

theorem Config.mnemonic_loadHigh {c : Config} (hc : c.wf = true) :
    (c.optable c.opcLoadHigh).mnemonic = c.mnemLoadHigh :=
  congrArg OpcodeDescriptor.mnemonic (Config.optable_loadHigh hc)

/-- Settles O21: load-high's number is not load-address's, so its line has no comment. -/
theorem ldhiImmediateCompletes : Obligations.LdhiImmediateCompletes := by
  intro s rd rs imm hc hk
  have hid : some s.cfg.opcLoadHigh ≠ some s.cfg.opcLoadAddr := fun h => Config.wf_kinds_differ hc (Option.some.inj h)
  rw [exec_eq_retire, record_ldhi_of_class hk]
  exact retire_of_immediate rfl hid (update_of_load_high_fields rfl rfl rfl)
    (immediateText_of_fields (Config.mnemonic_loadHigh hc) rfl rfl rfl)

/-- Settles O22, by `update_of_load_high_fields`. -/
theorem ldhiRegisterCompletes : Obligations.LdhiRegisterCompletes := by
  intro s rd rs rb imm hc hk
  rw [exec_eq_retire, record_ldhi_of_class hk]
  exact retire_of_register rfl (update_of_load_high_fields rfl rfl rfl)
    (registerText_of_fields (Config.mnemonic_loadHigh hc) rfl rfl rfl rfl)

/-- Settles O23: with no register fields the kind's write is to register 0 (`update_of_load_high_zero`). -/
theorem ldhiJumpCompletes : Obligations.LdhiJumpCompletes := by
  intro s imm hc hk
  rw [exec_eq_retire, record_ldhi_of_class hk]
  exact retire_of_comment (update_of_load_high_zero rfl rfl)
    (format_of_jump _ _ _ _ rfl (Config.mnemonic_loadHigh hc) rfl)

/-- Settles O24: the line is formatted on the updated shadow (`update_ldaRecord`, `format_ldaRecord`). -/
theorem ldaCompletes : Obligations.LdaCompletes := by
  intro s rd rs imm hc
  rw [exec_eq_retire]
  exact retire_of_comment (update_ldaRecord hc s.x rd rs imm) (format_ldaRecord hc rd rs imm _ _ _ _)

/-! ## The other slots (R128) -/

/-- Settles O25: the record's number, if any, is the slot's own, which is neither kind's. -/
theorem dwordInvalidCompletes : Obligations.DwordInvalidCompletes := by
  intro s o low _ hi
  obtain ⟨hfits, hHigh, hAddr⟩ := Instr.wf_dword_slot hi
  refine ⟨?_, fun h => by rw [h]; exact ⟨rfl, rfl⟩⟩
  rw [exec_eq_retire, record_dword_of_invalid (of_decide_eq_true hfits)]
  exact retire_of_invalid rfl
    (update_of_no_kind (fun h => hHigh (Config.eq_of_optable_opcodeId h))
      fun h => hAddr (Config.eq_of_optable_opcodeId h)) rfl

/-- Settles O26: the operand form gives the class, and the slot is neither kind's. -/
theorem dwordRegisterAndImmediateComplete : Obligations.DwordRegisterAndImmediateComplete := by
  refine fun s o _ => ⟨fun rd rs rb imm hi => ?_, fun rd rs imm hi => ?_⟩
  · obtain ⟨hfits, hHigh, hAddr⟩ := Instr.wf_dword_slot hi
    rw [exec_eq_retire, record_dword_of_class (of_decide_eq_true hfits) (by decide)]
    exact retire_of_register rfl (update_of_other_opcode rfl hHigh hAddr) (registerText_of_fields rfl rfl rfl rfl rfl)
  · obtain ⟨hfits, hHigh, hAddr⟩ := Instr.wf_dword_slot hi
    rw [exec_eq_retire, record_dword_of_class (of_decide_eq_true hfits) (by decide)]
    exact retire_of_immediate rfl (fun h => hAddr (Option.some.inj h)) (update_of_other_opcode rfl hHigh hAddr)
      (immediateText_of_fields rfl rfl rfl rfl)

/-- Settles O27: as O26, with the line of `format_of_jump`. -/
theorem dwordJumpCompletes : Obligations.DwordJumpCompletes := by
  intro s o imm _ hi
  obtain ⟨hfits, hHigh, hAddr⟩ := Instr.wf_dword_slot hi
  rw [exec_eq_retire, record_dword_of_class (of_decide_eq_true hfits) (by decide)]
  exact retire_of_comment (update_of_other_opcode rfl hHigh hAddr) (format_of_jump _ _ _ _ rfl rfl rfl)

end Sys2Proof.Machine

/-! # The shadow update

The statements of spec/43_register_shadow.md: what the two kinds write (R152, R153), what a record of no kind leaves alone
(R155), the forced zero (R154), and the pair the two kinds are made for (R158). -/

namespace Sys2Proof.Machine

/-! ## The value of a load-high (R152) -/

/-- R152: the high half is the low 16 bits of the sum, and the low half is zero. -/
theorem toNat_loadHighValue (v imm : Word) : (loadHighValue v imm).toNat = (v + imm).toNat % 2 ^ 16 * 2 ^ 16 := by
  rw [loadHighValue, BitVec.toNat_shiftLeft, Nat.shiftLeft_eq]
  omega

theorem toNat_and_lowHalf (v : Word) : (v &&& 0xFFFF#32).toNat = v.toNat % 2 ^ 16 :=
  (BitVec.toNat_and ..).trans (Nat.and_two_pow_sub_one_eq_mod _ 16)

/-- R152: the sign extension of the immediate changes the sum by a multiple of `2 ^ 16`, which the shift removes. -/
theorem loadHighValue_and_lowHalf (v imm : Word) : loadHighValue v (imm &&& 0xFFFF#32) = loadHighValue v imm := by
  apply BitVec.eq_of_toNat_eq
  rw [toNat_loadHighValue, toNat_loadHighValue, BitVec.toNat_add, BitVec.toNat_add, toNat_and_lowHalf]
  omega

/-! ## The value of a load-address (R153) -/

/-- R75, R153: the mask of the Immediate class, brought down by its shift, is the low half. -/
theorem unsignedImm_of_loadAddr_desc {c : Config} {rec : DecodedInstruction} (hc : c.wf = true)
    (hdesc : rec.desc = c.optable c.opcLoadAddr) : unsignedImm rec = rec.imm &&& 0xFFFF#32 := by
  rw [unsignedImm, hdesc, Config.optable_loadAddr hc]
  rfl

/-- R153: the mask has no bit in the high half. -/
theorem extractLsb'_highHalf_loadAddrValue (v imm : Word) :
    (loadAddrValue v (imm &&& 0xFFFF#32)).extractLsb' 16 16 = v.extractLsb' 16 16 := by
  have hmask : (0xFFFF#32).extractLsb' 16 16 = 0#16 := by decide
  rw [loadAddrValue, BitVec.extractLsb'_xor, BitVec.extractLsb'_and, hmask, BitVec.and_zero, BitVec.xor_zero]

/-! ## The updates of a record -/

/-- Settles O14: the record's register holds `loadHighValue` (`update_of_load_high`), and the rest is true of any record. -/
theorem loadHighUpdate : Obligations.LoadHighUpdate := by
  intro c x rec hid
  refine ⟨fun hrd => ?_, fun i h0 hi => readX_update_other c x rec h0 hi, readX_update_zero c x rec⟩
  rw [update_of_load_high hid, readX_after_forced_zero, if_neg hrd]
  exact ⟨rfl, toNat_loadHighValue _ _, (loadHighValue_and_lowHalf _ _).symm⟩

/-- Settles O15: the record's register holds `loadAddrValue` of the masked immediate, and the rest is true of any record. -/
theorem loadAddressUpdate : Obligations.LoadAddressUpdate := by
  intro c x rec hc hid hdesc
  refine ⟨fun hrd => ?_, fun i h0 hi => readX_update_other c x rec h0 hi, readX_update_zero c x rec⟩
  rw [update_of_load_addr hid (Config.wf_kinds_differ hc), readX_after_forced_zero, if_neg hrd,
    unsignedImm_of_loadAddr_desc hc hdesc]
  exact ⟨rfl, extractLsb'_highHalf_loadAddrValue _ _⟩

/-- Settles O16: a register can change only under the number of a kind, and a record's number is its word's slot. -/
theorem otherRecordsLeaveShadow : Obligations.OtherRecordsLeaveShadow := by
  intro c x w hHigh hAddr i h0
  by_contra hne
  obtain ⟨-, hkind⟩ := destination_and_kind_of_changed h0 hne
  rw [decodeRecord_opcodeId] at hkind
  rcases hkind with hk | hk
  · exact hHigh (Config.eq_of_optable_opcodeId hk)
  · exact hAddr (Config.eq_of_optable_opcodeId hk)

/-- Settles O17: an instruction that completes leaves the shadow of an `Update` (`exec_x`), which ends with the forced zero. -/
theorem registerZeroAfterEveryInstruction : Obligations.RegisterZeroAfterEveryInstruction := by
  intro i s t h
  rw [exec_x h]
  exact readX_update_zero _ _ _

/-! ## The address-forming pair (R158) -/

/-- R152, R158: over a register that reads 0 a load-high is "load upper half" of the field itself. -/
theorem loadHighValue_zero_signExtend (h : BitVec 16) : loadHighValue 0#32 (h.signExtend 32) = h.setWidth 32 <<< 16 := by
  have hfield : h.signExtend 32 &&& 0xFFFF#32 = h.setWidth 32 := signExtend_and_allOnes h
  rw [← loadHighValue_and_lowHalf, hfield, loadHighValue, BitVec.zero_add]

/-- R158: the two halves share no bit, so the xor fills the low half. -/
theorem shiftLeft_setWidth_xor_eq_or (h l : BitVec 16) :
    h.setWidth 32 <<< 16 ^^^ l.setWidth 32 = (h.setWidth 32 <<< 16) ||| l.setWidth 32 := by
  apply BitVec.eq_of_getLsbD_eq
  intro i _
  rw [BitVec.getLsbD_xor, BitVec.getLsbD_or, BitVec.getLsbD_shiftLeft, BitVec.getLsbD_setWidth]
  by_cases hi : i < 16
  · simp [hi]
  · simp [BitVec.getLsbD_of_ge l i (Nat.le_of_not_lt hi)]

/-- R152: what a completed load-high leaves in its destination. -/
theorem exec_ldhi_readX {s t : State} {ops : Operands} (hrd : ops.rd ≠ 0#5) (h : exec (.ldhi ops) s = .next t) :
    readX t.x ops.rd = loadHighValue (readX s.x ops.rs) (ops.imm s.cfg.opcLoadHigh) := by
  rw [exec_x h, update_of_load_high_fields rfl rfl rfl, readX_after_forced_zero, if_neg hrd]
  rfl

/-- R153: what a completed load-address leaves in its destination. -/
theorem exec_lda_readX {s t : State} {rd rs : RegIdx} {imm : BitVec 16} (hc : s.cfg.wf = true) (hrd : rd ≠ 0#5)
    (h : exec (.lda rd rs imm) s = .next t) : readX t.x rd = readX s.x rs ^^^ imm.setWidth 32 := by
  rw [exec_x h, Instr.record, update_ldaRecord hc, readX_after_forced_zero, if_neg hrd]

/-- Settles O30: the load-high leaves `H <<< 16` in the register, and the load-address xors `L` into it. -/
theorem addressFormingPair : Obligations.AddressFormingPair := by
  intro s t u rd h l hc hrd h0 ht hu
  obtain ⟨-, hcfg, -⟩ := exec_frame ht
  calc readX u.x rd
    _ = readX t.x rd ^^^ l.setWidth 32 := exec_lda_readX (hcfg ▸ hc) hrd hu
    _ = loadHighValue (readX s.x 0#5) (h.signExtend 32) ^^^ l.setWidth 32 :=
      congrArg (· ^^^ _) (exec_ldhi_readX (ops := .immediate rd 0#5 h) hrd ht)
    _ = h.setWidth 32 <<< 16 ^^^ l.setWidth 32 := by rw [h0, loadHighValue_zero_signExtend]
    _ = (h.setWidth 32 <<< 16) ||| l.setWidth 32 := shiftLeft_setWidth_xor_eq_or h l

end Sys2Proof.Machine

/-! # The text of a line

The statements of spec/44_formatter.md: what the digits of a number say (R171, R177, R180), where a Jump leads (R176), and which
symbol callbacks a Step makes (R178). -/

namespace Sys2Proof.Machine

/-! ## The digits of a number (R171) -/

section
variable {base : Nat} {digit : Nat → Char} {fuel n : Nat}

theorem digitsIn_of_lt (h : n < base) : digitsIn base digit (fuel + 1) n = [digit n] := if_pos h

theorem digitsIn_of_ge (h : base ≤ n) :
    digitsIn base digit (fuel + 1) n = digitsIn base digit fuel (n / base) ++ [digit (n % base)] := if_neg h.not_gt

/-- What every digit of the base is, every digit of a number is. -/
theorem forall_mem_digitsIn {P : Char → Prop} (hbase : 0 < base) (hdigit : ∀ d < base, P (digit d)) :
    ∀ c ∈ digitsIn base digit fuel n, P c := by
  induction fuel generalizing n with
  | zero => exact fun _ hc => absurd hc List.not_mem_nil
  | succ fuel ih =>
    rcases Nat.lt_or_ge n base with hlt | hge
    · rw [digitsIn_of_lt hlt]
      exact List.forall_mem_singleton.mpr (hdigit n hlt)
    · rw [digitsIn_of_ge hge]
      exact List.forall_mem_append.mpr ⟨ih, List.forall_mem_singleton.mpr (hdigit _ (Nat.mod_lt n hbase))⟩

theorem digitsIn_ne_nil : digitsIn base digit (fuel + 1) n ≠ [] := by
  rcases Nat.lt_or_ge n base with hlt | hge
  · simp [digitsIn_of_lt hlt]
  · simp [digitsIn_of_ge hge]

/-- No padding: when there is room for all the digits of a number other than 0, the first is no zero. -/
theorem head?_digitsIn (hn : n < base ^ fuel) (h0 : n ≠ 0) :
    ∃ d < base, d ≠ 0 ∧ (digitsIn base digit fuel n).head? = some (digit d) := by
  induction fuel generalizing n with
  | zero => exact absurd (Nat.lt_one_iff.mp hn) h0
  | succ fuel ih =>
    rcases Nat.lt_or_ge n base with hlt | hge
    · exact ⟨n, hlt, h0, by rw [digitsIn_of_lt hlt, List.head?_cons]⟩
    · have hbase : 0 < base := Nat.pos_of_ne_zero fun h => by simp [h] at hn
      obtain ⟨d, hd, hd0, hhead⟩ := ih (Nat.div_lt_of_lt_mul (by rwa [pow_succ'] at hn)) (Nat.div_pos hge hbase).ne'
      exact ⟨d, hd, hd0, by rw [digitsIn_of_ge hge, List.head?_append, hhead, Option.some_or]⟩

/-- A number from `base ^ k` up, below the next power, has `k + 1` digits. -/
theorem length_digitsIn {k : Nat} (hbase : 0 < base) (hfuel : k < fuel) (hle : base ^ k ≤ n) (hlt : n < base ^ (k + 1)) :
    (digitsIn base digit fuel n).length = k + 1 := by
  induction k generalizing fuel n with
  | zero =>
    obtain ⟨fuel, rfl⟩ := Nat.exists_eq_succ_of_ne_zero hfuel.ne'
    rw [digitsIn_of_lt (by rwa [pow_one] at hlt), List.length_singleton]
  | succ k ih =>
    obtain ⟨fuel, rfl⟩ := Nat.exists_eq_succ_of_ne_zero (Nat.ne_zero_of_lt hfuel)
    have hge : base ≤ n := (Nat.le_self_pow k.succ_ne_zero base).trans hle
    have hdiv : (digitsIn base digit fuel (n / base)).length = k + 1 :=
      ih (Nat.lt_of_succ_lt_succ hfuel) ((Nat.le_div_iff_mul_le hbase).mpr hle)
        ((Nat.div_lt_iff_lt_mul hbase).mpr hlt)
    rw [digitsIn_of_ge hge, List.length_append, hdiv, List.length_singleton]

end

/-- A digit that reads as 0 may stand any number of times before the others. -/
theorem foldl_leftpad {f : Nat → Char → Nat} {z : Char} (hz : f 0 z = 0) (k : Nat) (l : List Char) :
    (l.leftpad k z).foldl f 0 = l.foldl f 0 := by
  rw [List.leftpad, List.foldl_append]
  congr 1
  induction k - l.length with
  | zero => rfl
  | succ m ih => rw [List.replicate_succ, List.foldl_cons, hz, ih]

/-! ## Lower-case hexadecimal (R171) -/

theorem hexLower_toList (n : Nat) : (hexLower n).toList = digitsIn 16 lowerDigit 16 n :=
  String.toList_ofList

theorem lowerDigit_hex_value :
    ∀ d < 16, (if (lowerDigit d).toNat < 58 then (lowerDigit d).toNat - 48 else (lowerDigit d).toNat - 87) = d := by
  decide

theorem lowerDigit_range :
    ∀ d < 16, ('0' ≤ lowerDigit d ∧ lowerDigit d ≤ '9') ∨ ('a' ≤ lowerDigit d ∧ lowerDigit d ≤ 'f') := by decide

theorem lowerDigit_ne_zero : ∀ d < 16, d ≠ 0 → lowerDigit d ≠ '0' := by decide

/-- Settles O33: sixteen digits are room for every number below 2^64, so they read back and do not begin with a zero. -/
theorem hexadecimalReadsBack : Obligations.HexadecimalReadsBack := by
  intro n hn
  have hroom : n < 16 ^ 16 := hn
  rw [hexLower_toList]
  refine ⟨foldl_digitsIn (value := fun d => if d.toNat < 58 then d.toNat - 48 else d.toNat - 87) lowerDigit_hex_value hroom,
    forall_mem_digitsIn (by decide) lowerDigit_range, digitsIn_ne_nil, fun h0 hzero => ?_⟩
  obtain ⟨d, hd, hd0, hhead⟩ := head?_digitsIn hroom h0
  exact lowerDigit_ne_zero d hd hd0 (Option.some.inj (hhead.symm.trans hzero))

/-- R180: the 32-bit two's complement of a negative displacement has its top bit set. -/
theorem two_pow_31_le_signExtend_of_neg {imm : BitVec 26} (h : imm.toInt < 0) : 2 ^ 31 ≤ (imm.signExtend 32).toNat := by
  rw [← BitVec.toInt_signExtend_of_le (v := 32) (by decide), BitVec.toInt_neg_iff] at h
  omega

/-- Settles O36: a 32-bit number with its top bit set is from 16^7 up and below 16^8. -/
theorem negativeDisplacementHasEightDigits : Obligations.NegativeDisplacementHasEightDigits := by
  intro imm h
  rw [← String.length_toList, hexLower_toList]
  have hle : 16 ^ 7 ≤ (imm.signExtend 32).toNat := le_trans (by decide) (two_pow_31_le_signExtend_of_neg h)
  exact length_digitsIn (by decide) (by decide) hle (imm.signExtend 32).isLt

/-! ## The raw word in upper case (R171, R177) -/

theorem hexUpper4_toList (n : Nat) : (hexUpper4 n).toList = (digitsIn 16 upperDigit 16 n).leftpad 4 '0' :=
  String.toList_ofList

theorem length_hexUpper4 (n : Nat) : (hexUpper4 n).length = max 4 (digitsIn 16 upperDigit 16 n).length := by
  rw [← String.length_toList, hexUpper4_toList, List.length_leftpad]

theorem upperDigit_hex_value :
    ∀ d < 16, (if (upperDigit d).toNat < 58 then (upperDigit d).toNat - 48 else (upperDigit d).toNat - 55) = d := by
  decide

theorem upperDigit_range :
    ∀ d < 16, ('0' ≤ upperDigit d ∧ upperDigit d ≤ '9') ∨ ('A' ≤ upperDigit d ∧ upperDigit d ≤ 'F') := by decide

theorem upperDigit_ne_zero : ∀ d < 16, d ≠ 0 → upperDigit d ≠ '0' := by decide

/-- R171: a text of more than 4 digits is not padded. -/
theorem hexUpper4_toList_of_long {n : Nat} (h : 4 < (hexUpper4 n).length) :
    (hexUpper4 n).toList = digitsIn 16 upperDigit 16 n := by
  rw [length_hexUpper4] at h
  have hpad : 4 - (digitsIn 16 upperDigit 16 n).length = 0 := by omega
  rw [hexUpper4_toList, List.leftpad, hpad, List.replicate_zero, List.nil_append]

/-- The text of 0 is padded. -/
theorem ne_zero_of_hexUpper4_long {n : Nat} (h : 4 < (hexUpper4 n).length) : n ≠ 0 := by
  rintro rfl
  exact absurd h (by decide)

/-- Settles O34: the padding reads as nothing (`foldl_leftpad`), and there is none before more than 4 digits. -/
theorem rawWordReadsBack : Obligations.RawWordReadsBack := by
  intro w
  have hroom : w.toNat < 16 ^ 16 := w.isLt.trans (by decide)
  refine ⟨?_, ?_, ?_, fun hlong hzero => ?_⟩
  · rw [hexUpper4_toList, foldl_leftpad rfl]
    exact foldl_digitsIn (value := fun d => if d.toNat < 58 then d.toNat - 48 else d.toNat - 55) upperDigit_hex_value hroom
  · rw [hexUpper4_toList, List.leftpad, List.forall_mem_append]
    refine ⟨fun d hd => ?_, forall_mem_digitsIn (by decide) upperDigit_range⟩
    obtain rfl := List.eq_of_mem_replicate hd
    exact .inl (by decide)
  · rw [length_hexUpper4]
    exact le_max_left 4 _
  · rw [hexUpper4_toList_of_long hlong] at hzero
    obtain ⟨d, hd, hd0, hhead⟩ := head?_digitsIn hroom (ne_zero_of_hexUpper4_long hlong)
    exact upperDigit_ne_zero d hd hd0 (Option.some.inj (hhead.symm.trans hzero))

/-! ## The target of a Jump (R176) -/

theorem toNat_signExtend_eq_emod {m : Nat} (n : Nat) (v : BitVec m) :
    ((v.signExtend n).toNat : Int) = v.toInt % 2 ^ n := by
  have hpos : 0 ≤ v.toInt % (2 ^ n : Int) := Int.emod_nonneg _ (by positivity)
  rw [BitVec.signExtend, BitVec.toNat_ofInt, Nat.cast_pow, Nat.cast_ofNat, Int.toNat_of_nonneg hpos]

/-- R176, D17: the sum and the product of `Target` are modulo 2^64, so their value is that of the integers. -/
theorem toNat_target (imm : BitVec 26) (addr : Addr) :
    ((target (imm.signExtend 32) addr).toNat : Int) = (imm.toInt * 4 + addr.toNat) % 2 ^ 64 := by
  have himm := toNat_signExtend_eq_emod 64 imm
  rw [target_signExtend, BitVec.toNat_add, BitVec.toNat_mul]
  simp only [BitVec.toNat_ofNat]
  omega

/-- Settles O32: the value is `toNat_target`; a multiple of 4 is added modulo a multiple of 4, so the low two bits stay. -/
theorem jumpTargetArithmetic : Obligations.JumpTargetArithmetic := by
  intro imm addr
  have htarget := toNat_target imm addr
  have hlow := imm.le_toInt
  have hhigh := imm.toInt_lt
  refine ⟨htarget, ?_, ?_, ?_⟩ <;> omega

/-! ## The symbol callbacks of a Step (R178) -/

/-- R121, R178: after a read that succeeds, the callbacks made are those about the address the fetched word's record asks about on
the shadow its update left, if any. -/
theorem runCall_trace_of_zero_status {s t : State} (hs : s.call.status = some 0) (h : runCall s = .next t) :
    t.trace = s.trace ++
      (askedAddress s.cfg (decodeRecord s.cfg (wordOfBytes (Vector.ofFn fun i => fetchByte s.image s.call i)))
        s.call.addr t.x).elim [] fun a => symbolCallbacks a (symbolReply s.call.symbols a) := by
  rw [runCall_of_zero_status hs, exec_eq_retire, record_decode] at h
  obtain ⟨_, _, hf, rfl⟩ := retire_next h
  rw [format_calls hf]

/-- Settles O49: the trace begins as the one read, and `runCall_trace_of_zero_status` adds the symbol callbacks. -/
theorem symbolCallbacksOfAStep : Obligations.SymbolCallbacksOfAStep := by
  intro s t c rest hi hs h rec'
  rw [step_of_call hi] at h
  have htrace := runCall_trace_of_zero_status (by rwa [beginCall_call]) h
  simp only [beginCall_call, beginCall_cfg, beginCall_image, beginCall_trace] at htrace
  rw [htrace, List.singleton_append]
  cases askedAddress s.cfg rec' c.addr t.x <;> rfl

end Sys2Proof.Machine

/-! # Faults, and when a Step ends

The statements of spec/60_exceptions.md: the shadow is indexed within its bounds, a failed read is taken once and leaves no mark
on the next Step, and a Step ends exactly when the callbacks it makes return. -/

namespace Sys2Proof

theorem decodeRecord_registers_lt (c : Config) (w : Word) :
    (decodeRecord c w).rd.toNat < 32 ∧ (decodeRecord c w).rs.toNat < 32 ∧ (decodeRecord c w).rb.toNat < 32 := by
  rw [← record_decode]
  exact Laws.RecordFields.all (decode c w) c

end Sys2Proof

namespace Sys2Proof.Machine

/-! ## Register fields (R195) -/

theorem toNat_regOf {r : BitVec 16} (h : r.toNat < 32) : (regOf r).toNat = r.toNat := by
  rw [regOf, BitVec.toNat_setWidth, Nat.mod_eq_of_lt h]

/-- Settles O4: the algorithm's record is an instruction's, whose fields are 5-bit values (`decodeRecord_registers_lt`). -/
theorem registerFieldsInRange : Obligations.RegisterFieldsInRange := by
  intro c w
  obtain ⟨hrd, hrs, hrb⟩ := decodeRecord_registers_lt c w
  exact ⟨hrd, hrs, hrb, toNat_regOf hrd, toNat_regOf hrs, toNat_regOf hrb⟩

/-! ## Taking the fault (R190, R191) -/

theorem runCall_of_nonzero_status {s : State} {status : Int} (hs : s.call.status = some status) (h0 : status ≠ 0) :
    runCall s = takeMemReadFail status s := by
  rcases runCall_cases s with ⟨hnone, _⟩ | ⟨status', hs', _, hr⟩ | ⟨hzero, _⟩
  · simp [hs] at hnone
  · obtain rfl : status = status' := Option.some.inj (hs.symm.trans hs')
    exact hr
  · simp [hs, h0] at hzero

/-- Settles O42: a non-zero status takes the fault (`runCall_of_nonzero_status`) on the state of `beginCall_eq`. -/
theorem failedReadIsTaken : Obligations.FailedReadIsTaken := by
  intro s c rest status hi hs h0 hreport
  rw [step_of_call hi, runCall_of_nonzero_status (by rwa [beginCall_call]) h0,
    takeMemReadFail_of_reportReturns (by rwa [beginCall_call]), beginCall_eq]
  rfl

/-! ## After the fault (R202) -/

theorem exec_of_other_out (i : Instr) (s : State) (out : StepOutput) : exec i { s with out := out } = exec i s := by
  rw [exec_eq_retire, exec_eq_retire]
  rfl

/-- A Step reads nothing of the outcome before it, and puts out its own. -/
theorem runCall_of_other_out (s : State) (out : StepOutput) : runCall { s with out := out } = runCall s := by
  rcases hs : s.call.status with _ | status
  · simp only [runCall, memRead, hs]
  by_cases h0 : status = 0
  · subst h0
    rw [runCall_of_zero_status hs, runCall_of_zero_status (s := { s with out := out }) hs, exec_of_other_out]
  · rw [runCall_of_nonzero_status hs h0, runCall_of_nonzero_status (s := { s with out := out }) hs h0]
    rfl

/-- The start of a Step leaves nothing of the start before it but the shadow, which either would create (R25). -/
theorem beginCall_beginCall (c c' : Call) (rest rest' : List Input) (s : State) :
    beginCall c' rest' (beginCall c rest s) = beginCall c' rest' s := by
  rw [beginCall_eq c' rest' s, beginCall_eq c rest s, beginCall_eq]
  rfl

theorem beginCall_of_other_outputs (c : Call) (rest : List Input) (s : State) (out : StepOutput) (trace : List HostCall) :
    beginCall c rest { s with out := out, trace := trace } = { beginCall c rest s with out := out } := by
  rw [beginCall_eq, beginCall_eq]

/-- The next call does not see the outcome and the callbacks of the Step that had begun before it. -/
theorem step_of_begun_call (c c' : Call) (rest : List Input) (s : State) (out : StepOutput) (trace : List HostCall) :
    step { beginCall c (.call c' :: rest) s with out := out, trace := trace } = step { s with inputs := .call c' :: rest } := by
  have hinputs : ({ beginCall c (.call c' :: rest) s with out := out, trace := trace } : State).inputs = .call c' :: rest :=
    beginCall_inputs c (.call c' :: rest) s
  rw [step_of_call hinputs, step_of_call rfl, beginCall_of_other_outputs, runCall_of_other_out, beginCall_beginCall]
  rfl

/-- Settles O43: what the fault leaves is the state of a begun Step with its own outcome and callbacks (`step_of_begun_call`). -/
theorem readyAfterFault : Obligations.ReadyAfterFault := by
  intro s t c c' rest status hi hs h0 h u
  rw [step_of_call hi, runCall_of_nonzero_status (by rwa [beginCall_call]) h0] at h
  obtain ⟨_, rfl⟩ := takeMemReadFail_next h
  rw [step_of_begun_call]

/-! ## When a Step ends (R196) -/

theorem withComment_ok_iff {before : String} {symbols : List (Addr × SymbolReply)} {a : Addr} :
    (∃ line, withComment before symbols a = .ok line) ↔ (symbolReply symbols a).returns = true := by
  refine ⟨?_, withComment_ok_of_returns before⟩
  rintro ⟨line, hline⟩
  rcases withComment_cases before symbols a with ⟨hr, _⟩ | ⟨_, hr, _⟩ | ⟨_, hw⟩ | ⟨_, hw⟩
  · rw [hr, SymbolReply.returns]
  · rw [hr, SymbolReply.returns]
  · cases hw.symm.trans hline
  · cases hw.symm.trans hline

/-- R178: the line is there exactly when the host answers about the address the record asks about, if any. -/
theorem format_ok_iff {c : Config} {rec : DecodedInstruction} {addr : Addr} {x : Shadow}
    {symbols : List (Addr × SymbolReply)} :
    (∃ line, format c rec addr x symbols = .ok line) ↔
      ∀ a, askedAddress c rec addr x = some a → (symbolReply symbols a).returns = true := by
  refine ⟨fun hline a ha => ?_, format_ok_of_asked_returns⟩
  obtain ⟨before, hf⟩ := format_of_asked symbols ha
  rw [hf] at hline
  exact withComment_ok_iff.mp hline

theorem retire_ends_iff {rec : DecodedInstruction} {s : State} :
    (∃ t, retire rec s = .next t) ↔
      ∀ a, askedAddress s.cfg rec s.call.addr (update s.cfg s.x rec) = some a →
        (symbolReply s.call.symbols a).returns = true := by
  rw [← format_ok_iff]
  constructor
  · rintro ⟨t, ht⟩
    obtain ⟨text, calls, hf, _⟩ := retire_next ht
    exact ⟨(text, calls), hf⟩
  · rintro ⟨line, hf⟩
    exact ⟨_, retire_completes hf⟩

theorem takeMemReadFail_ends_iff {status : Int} {s : State} :
    (∃ t, takeMemReadFail status s = .next t) ↔ s.call.reportReturns = true := by
  constructor
  · rintro ⟨t, ht⟩
    obtain ⟨hreport, _⟩ := takeMemReadFail_next ht
    exact hreport
  · exact fun h => ⟨_, takeMemReadFail_of_reportReturns h⟩

/-- A Step whose call has begun ends exactly when its read returns and so does what follows: the report of a failed read, or the
host's answer about the address the fetched word's line asks about. -/
theorem runCall_ends_iff (s : State) :
    let rec' := decodeRecord s.cfg (wordOfBytes (Vector.ofFn fun i => fetchByte s.image s.call i))
    (∃ t, runCall s = .next t) ↔
      ∃ status, s.call.status = some status ∧ (status ≠ 0 → s.call.reportReturns = true) ∧
        (status = 0 → ∀ a, askedAddress s.cfg rec' s.call.addr (update s.cfg s.x rec') = some a →
          (symbolReply s.call.symbols a).returns = true) := by
  intro rec'
  rcases runCall_cases s with ⟨hs, hr⟩ | ⟨status, hs, h0, hr⟩ | ⟨hs, hr⟩
  · simp [hs, hr]
  · rw [hr, takeMemReadFail_ends_iff]
    simp [hs, h0]
  · rw [hr, record_decode, retire_ends_iff]
    simp [hs, rec']

/-- Settles O45: `runCall_ends_iff` of the Step whose call has begun. -/
theorem stepEndsIffCallbacksReturn : Obligations.StepEndsIffCallbacksReturn := by
  intro s c rest hi word x₁
  rw [step_of_call hi]
  simpa using runCall_ends_iff (beginCall c rest s)

end Sys2Proof.Machine

/-! # Reset, and the same instruction twice

The statements of spec/70_reset_and_hazards.md: what the host's reset leaves (R210, R211), and when the second of two equal
instructions changes the shadow (R214). -/

namespace Sys2Proof.Machine

/-- Settles O40: the step is the session reset of the state without that input (`step_of_reset`), which clears `created`. -/
theorem resetClearsCreatedOnly : Obligations.ResetClearsCreatedOnly :=
  fun _ _ hi => step_of_reset hi

/-! ## The source is not the destination -/

/-- The write of a kind followed by the forced zero leaves any other register that is zero or not register 0. -/
theorem readX_after_forced_zero_other {x : Shadow} {rd rs : RegIdx} (v : Word) (hne : rs ≠ rd) (h0 : readX x 0#5 = 0#32) :
    readX (writeX (writeX x rd v) 0#5 0#32) rs = readX x rs := by
  by_cases hrs : rs = 0#5
  · rw [hrs, readX_writeX_same, h0]
  · rw [readX_writeX_other _ _ hrs, readX_writeX_other _ _ hne]

/-- The second of two equal writes finds the value there already, also when the register is 0. -/
theorem forced_zero_write_twice (x : Shadow) (rd : RegIdx) (v : Word) :
    writeX (writeX (writeX (writeX x rd v) 0#5 0#32) rd v) 0#5 0#32 = writeX (writeX x rd v) 0#5 0#32 := by
  apply shadow_ext
  intro r
  by_cases h0 : r = 0#5
  · rw [h0, readX_writeX_same, readX_writeX_same]
  by_cases hrd : r = rd
  · rw [hrd, readX_after_forced_zero, readX_after_forced_zero]
  · rw [readX_writeX_other _ _ h0, readX_writeX_other _ _ hrd]

/-- R214: an `Update` whose source is not its destination reads the same source value the second time, so it writes the same. -/
theorem update_update {c : Config} {x : Shadow} {rec : DecodedInstruction} (hc : c.wf = true)
    (hne : regOf rec.rs ≠ regOf rec.rd) (h0 : readX x 0#5 = 0#32) :
    update c (update c x rec) rec = update c x rec := by
  by_cases hHigh : rec.opcodeId = some c.opcLoadHigh
  · simp only [update_of_load_high hHigh]
    rw [readX_after_forced_zero_other _ hne h0, forced_zero_write_twice]
  by_cases hAddr : rec.opcodeId = some c.opcLoadAddr
  · simp only [update_of_load_addr hAddr (Config.wf_kinds_differ hc)]
    rw [readX_after_forced_zero_other _ hne h0, forced_zero_write_twice]
  · rw [update_of_no_kind hHigh hAddr, update_of_no_kind hHigh hAddr, writeX_writeX_same]

/-- R214: so any instruction whose record has another source than its destination leaves the second time what it left the first. -/
theorem exec_exec_x {i : Instr} {s t u : State} (hc : s.cfg.wf = true)
    (hne : regOf (i.record s.cfg).rs ≠ regOf (i.record s.cfg).rd) (h0 : readX s.x 0#5 = 0#32) (ht : exec i s = .next t)
    (hu : exec i t = .next u) : u.x = t.x := by
  obtain ⟨-, hcfg, -⟩ := exec_frame ht
  rw [exec_x hu, hcfg, exec_x ht, update_update hc hne h0]

/-! ## The source is the destination -/

/-- R214: a load-address of a register with itself flips the bits of its field again the second time. -/
theorem exec_lda_lda_x_ne {s t u : State} {rd : RegIdx} {imm : BitVec 16} (hc : s.cfg.wf = true) (hrd : rd ≠ 0#5)
    (himm : imm ≠ 0#16) (ht : exec (.lda rd rd imm) s = .next t) (hu : exec (.lda rd rd imm) t = .next u) :
    u.x ≠ t.x := by
  obtain ⟨-, hcfg, -⟩ := exec_frame ht
  intro hx
  have hread : readX t.x rd ^^^ imm.setWidth 32 = readX t.x rd := by rw [← exec_lda_readX (hcfg ▸ hc) hrd hu, hx]
  have hfield : imm.setWidth 32 = (0#16).setWidth 32 := (BitVec.xor_right_inj _).mp (hread.trans BitVec.xor_zero.symm)
  exact himm (setWidth_injective_of_le (by decide) hfield)

/-- R196: an instruction completes when the host answers about every address it lists. -/
theorem exec_ends_of_symbols_return {s : State} (i : Instr) (h : s.call.symbols.all (fun e => e.2.returns) = true) :
    ∃ t, exec i s = .next t := by
  rw [exec_eq_retire, retire_ends_iff]
  exact fun a _ => symbolReply_returns h a

/-- Settles O31: `exec_exec_x` of either kind; and from `State.reset`, whose host lists no symbol, a load-address of register 1 with
itself and field 1 takes the register from 0 to 1 and back. -/
theorem repeatedInstructionIsIdempotentUnlessSourceIsDestination :
    Obligations.RepeatedInstructionIsIdempotentUnlessSourceIsDestination := by
  refine ⟨fun s t u hc h0 => ⟨fun ops hne => ?_, fun rd rs imm hne => ?_⟩, ?_⟩
  · exact exec_exec_x hc (by simpa [Instr.record, ldhiRecord] using hne.symm) h0
  · exact exec_exec_x hc (by simpa [Instr.record, ldaRecord] using hne.symm) h0
  · obtain ⟨t, ht⟩ := exec_ends_of_symbols_return (s := State.reset) (.lda 1#5 1#5 1#16) rfl
    obtain ⟨-, -, -, hcall, -⟩ := exec_frame ht
    obtain ⟨u, hu⟩ := exec_ends_of_symbols_return (s := t) (.lda 1#5 1#5 1#16) (by rw [hcall]; rfl)
    exact ⟨State.reset, t, u, 1#5, 1#16, refcfg_wf, ht, hu, exec_lda_lda_x_ne refcfg_wf (by decide) (by decide) ht hu⟩

end Sys2Proof.Machine
